-- ==== Sys2Proof/Word.lean ====
section
/-!
DEFINITION. The word types of the machine: widths as spec/00_scope.md R5 fixes them.
-/
namespace Sys2Proof

/-- A byte of memory (20_memory.md R28). -/
abbrev Byte := BitVec 8

/-- A half word, the value a store writes (00_scope.md glossary). -/
abbrev Half := BitVec 16

/-- An instruction word, `ILEN` = 32 (00_scope.md R5). -/
abbrev Word := BitVec 32

/-- An effective address, `EAW` = 32 (00_scope.md R5). -/
abbrev Addr := BitVec 32

/-- The contents of a general register, `XLEN` = 64 (00_scope.md R5). -/
abbrev Dword := BitVec 64

/-- The number of a general register, `r0` to `r31`, `NGPR` = 32 (00_scope.md R5, 10_state.md R13). -/
abbrev Reg := Fin 32

end Sys2Proof
end

