-- ==== Sys2Proof/Config.lean ====
section
/-!
DEFINITION. What an implementation or a launch fixes: the open parameters of spec/00_scope.md R5 as one
record of plain data, and the one free value.
-/
namespace Sys2Proof

/-- What the model does with `sthu` or `sthux` whose RA field is 0 (30_encoding.md R57, 92_eei_decisions.md D3). -/
inductive InvalidFormPolicy where
  /-- The form is refused; the spec's default. -/
  | refuse
  /-- The form acts as the printed emulator code does (40_store_halfword.md R71). -/
  | snapshot
  deriving DecidableEq, Repr

/-- The `size`-byte accesses whose address lies in `first` to `last`, both ends included. A list of these
can write out any predicate `Admits(addr, n)` of 20_memory.md R29. -/
structure AccessRange where
  first : Nat
  last : Nat
  size : Nat
  deriving DecidableEq, Repr

/-- The launch parameters: fixed for a run, changed by no step (10_state.md R24).
DESIGN CHOICE: they stand in State as data, so that a statement about every state covers every value of
each parameter (log 4). Safe. -/
structure Launch where
  /-- `PCW`, the width of the program counter (00_scope.md R5, D6). -/
  pcw : Nat
  /-- The address of the first word of the program text (70_reset_and_hazards.md R90 point 2). -/
  textBase : Nat
  /-- How many 32-bit words the program text has (70_reset_and_hazards.md R90 point 2). -/
  textWords : Nat
  /-- `EndPc`, the address at which a run is over (70_reset_and_hazards.md R91). -/
  endPc : Nat
  /-- The accesses data memory accepts, before the program text is taken out (20_memory.md R29, D8). -/
  admitted : List AccessRange
  /-- `InvalidFormPolicy` (30_encoding.md R57, D3). -/
  invalidFormPolicy : InvalidFormPolicy
  /-- `ResGranule` is 2 to this power (20_memory.md R42, D11). -/
  resGranuleLog2 : Nat
  deriving DecidableEq, Repr

/-- FREE VALUE (log 18). Whether a store whose two bytes lie in different granules also removes the
reservations on the second granule: 20_memory.md R42 and D12 admit both outcomes. Applied to the counter
`freeCount` of State, so that each such store has a choice of its own. It has no body: nothing can be
proved of its value. Safe. -/
opaque Config.secondGranuleRemoved : Nat → Bool

end Sys2Proof
end

