-- ==== Sys2Proof/Machine/State.lean ====
section
/-!
DEFINITION. The machine's state as plain data, the reasons a step can stop, and the state after reset.
-/
namespace Sys2Proof.Machine

/-- Why a step faults: no next state, the run has gone wrong (00_scope.md R10). The three faults of the closed
list of 60_exceptions.md R78, and no other; none is a cause code of the hardware. -/
inductive Fault where
  /-- A half-word store at 0xFFFFFFFF (20_memory.md R36), or `pc + 4` reaching 2^PCW (10_state.md R17).
  Raised by `guardStore`. Safe: the hardware may go on. -/
  | addressWrap
  /-- `Admits(EA, 2)` is false (20_memory.md R29). Raised by `guardStore`. Safe. -/
  | storageNotAdmitted
  /-- An instruction reads a register that holds no value (10_state.md R26). Raised by `guardRegs`. Safe. -/
  | unwrittenRegister
  deriving DecidableEq, Repr

/-- Why a step is refused: the spec gives no meaning (00_scope.md R10). The five refusals of the closed list of
60_exceptions.md R78, and the host's `notModelled`, which nothing raises. -/
inductive Refusal where
  /-- An instruction whose arm of `exec` has no meaning yet. Raised by no arm: all four are modelled. Safe. -/
  | notModelled (mnemonic : String)
  /-- The word at pc matches none of the four rows (30_encoding.md R59), or the text has no word there to match
  one: at EndPc, outside the text, at a text byte that holds no value (DESIGN CHOICE, logs 3, 8, 9). Raised by
  `fetchAndRun`. Safe. -/
  | notInScope
  /-- The word is `sthx` or `sthux` but for `w[0]` = 1 (30_encoding.md R58). Raised by `fetchAndRun`. Safe. -/
  | reservedBitSet
  /-- `sthu` or `sthux` with RA field 0 under the policy `refuse` (30_encoding.md R57). Raised by
  `guardForm`. Safe. -/
  | invalidForm
  /-- pc is not a multiple of 4 (10_state.md R17). Raised by `fetchAndRun`. Safe. -/
  | misalignedFetch
  /-- Byte EA or EA + 1 lies in the program text (20_memory.md R44). Raised by `guardStore`. Safe. -/
  | storeIntoProgramText
  deriving DecidableEq, Repr

/-- An active reservation: its owner and the number of its granule (10_state.md R22). -/
structure Reservation where
  owner : Nat
  granule : Nat
  deriving DecidableEq, Repr

/-- A reservation table that is present: whether it is enabled, and the set `Res` of active reservations
as a list without repeats (10_state.md R22). -/
structure ReservationTable where
  enabled : Bool
  active : List Reservation
  deriving DecidableEq, Repr

/-- The three status bits 10_state.md R18 names. The spec gives them no place in a word, so they stand by
name (log 20). -/
structure XerBits where
  ca : Bool
  ov : Bool
  so : Bool
  deriving DecidableEq, Repr

/-- Memory: the bytes that hold a value, by address, addresses strictly rising (20_memory.md R28). An
address that is not listed holds no value (DESIGN CHOICE, log 3). Safe. -/
abbrev Memory := List Host.Cell

/-- Everything the spec gives the machine (10_state.md R13 to R24). -/
structure State where
  /-- `r0` to `r31` (10_state.md R13). -/
  gpr : Vector Dword 32
  /-- Which of `r0` to `r31` hold a value: the launch gave it one, or an instruction of the run wrote it
  (10_state.md R26). -/
  gprHeld : Vector Bool 32
  /-- The address of the instruction being executed (10_state.md R16); never wrapped (D6). -/
  pc : Nat
  /-- Data memory, which the program text lies in too (10_state.md R21, 20_memory.md R28, R33). -/
  mem : Memory
  /-- The reservation table, which may be absent (10_state.md R22). -/
  reservationTable : Option ReservationTable
  /-- XER's three named bits (10_state.md R18). -/
  xer : XerBits
  /-- The model's own: how many free choices the run has used (log 18). -/
  freeCount : Nat
  /-- The launch parameters, which no step changes (10_state.md R24). -/
  launch : Launch
  deriving DecidableEq, Repr

/-- What a step or a meaning answers. -/
abbrev Result := Host.Outcome State Fault Refusal

/-- The launch parameters in the reset state. PCW and InvalidFormPolicy are at the defaults of 00_scope.md
R5; the others are DESIGN CHOICES (logs 5, 13, 16): an empty text at the reset pc, every half-word access
admitted, a granule of one byte. Unsafe. -/
def Launch.atReset : Launch where
  pcw := 32
  textBase := 0x00010000
  textWords := 0
  endPc := 0x00010000
  admitted := [⟨0, 0xFFFFFFFF, 2⟩]
  invalidFormPolicy := .refuse
  resGranuleLog2 := 0

/-- The state after reset. Every register holds a value, so no read in a run from here is a fault. The spec gives
no reset value for anything (10_state.md R25, 70_reset_and_hazards.md R88): every value here is a DESIGN CHOICE
(logs 1, 2, 3, 5, 13, 15, 16, 18, 20) but for the two defaults named at `Launch.atReset`. Unsafe. -/
def State.reset : State where
  gpr := Vector.replicate 32 0
  gprHeld := Vector.replicate 32 true
  pc := 0x00010000
  mem := []
  reservationTable := some ⟨true, []⟩
  xer := ⟨false, false, false⟩
  freeCount := 0
  launch := Launch.atReset

end Sys2Proof.Machine
end

