-- ==== Sys2Proof/Machine/Ops.lean ====
section
/-!
DEFINITION. The named operations over registers, memory, the program text, the reservation table and the
program counter, and the checks a store passes. The spec has no exception to take or to return from
(60_exceptions.md R76, R77, R81, R82), so no such operation stands here.
-/
namespace Sys2Proof.Machine

/-! ## General registers (10_state.md R13 to R15, R26) -/

/-- `GPR[r]`. No register is hard-wired: `r0` is an ordinary register here (10_state.md R14). -/
def State.readReg (s : State) (r : Reg) : Dword := s.gpr[r]

/-- Register `r` holds a value (10_state.md R26). -/
def State.holdsValue (s : State) (r : Reg) : Bool := s.gprHeld[r]

/-- `GPR[r] <- v` (00_scope.md R7); the register written holds a value from then on (10_state.md R26). -/
def State.writeReg (s : State) (r : Reg) (v : Dword) : State :=
  { s with gpr := s.gpr.set r v, gprHeld := s.gprHeld.set r true }

/-! ## Memory (20_memory.md R28 to R36) -/

/-- How many byte addresses there are: 2^32 (20_memory.md R28). -/
def addressCount : Nat := 2 ^ 32

/-- The canonical form: addresses strictly rising, each an address that exists. -/
abbrev Memory.wf (m : Memory) : Prop :=
  m.Pairwise (fun c c' => c.1 < c'.1) ∧ ∀ c ∈ m, c.1 < addressCount

/-- The byte at an address; `none` where no byte has a value (log 3). -/
def Memory.read (m : Memory) (a : Nat) : Option Byte :=
  match m with
  | [] => none
  | (b, v) :: rest => if a = b then some v else Memory.read rest a

/-- `m` with byte `v` at address `a`, the canonical form kept. -/
def Memory.write (m : Memory) (a : Nat) (v : Byte) : Memory :=
  match m with
  | [] => [(a, v)]
  | (b, u) :: rest =>
    if a < b then (a, v) :: (b, u) :: rest
    else if a = b then (a, v) :: rest
    else (b, u) :: Memory.write rest a v

/-- Byte `k` of the `n`-byte value `v`, counted from its most significant byte: `v[8(n-k)-1 : 8(n-k-1)]`
(20_memory.md R30). -/
def byteBE (n : Nat) (v : BitVec (8 * n)) (k : Nat) : Byte := v.extractLsb' (8 * (n - 1 - k)) 8

/-- The first `j` byte writes of `MemWrite(addr, n, v)`. -/
def Memory.writeFirst (m : Memory) (a n : Nat) (v : BitVec (8 * n)) (j : Nat) : Memory :=
  match j with
  | 0 => m
  | j + 1 => (Memory.writeFirst m a n v j).write (a + j) (byteBE n v j)

/-- `MemWrite(addr, n, v)`: big-endian, byte `k` at `addr + k` (20_memory.md R30). Its callers pass
addresses with `addr + n - 1 < 2^32` (20_memory.md R36). -/
def Memory.memWrite (m : Memory) (a n : Nat) (v : BitVec (8 * n)) : Memory := m.writeFirst a n v n

/-- The value of the `n` bytes at `a`, most significant first, as a number. -/
def Memory.readNat (m : Memory) (a n : Nat) : Option Nat :=
  match n with
  | 0 => some 0
  | n + 1 =>
    match m.readNat a n, m.read (a + n) with
    | some x, some b => some (256 * x + b.toNat)
    | _, _ => none

/-- `MemRead(addr, n)`: big-endian (00_scope.md R7, 20_memory.md R34); `none` where one of the bytes holds no
value. No instruction in scope uses it. -/
def Memory.memRead (m : Memory) (a n : Nat) : Option (BitVec (8 * n)) :=
  (m.readNat a n).map (BitVec.ofNat (8 * n))

/-! ## The program text and the admitted accesses (20_memory.md R29, R44) -/

/-- The first address after the program text. -/
def textStop (l : Launch) : Nat := l.textBase + 4 * l.textWords

/-- The address `a` lies in `Text` (20_memory.md R44). -/
def inText (l : Launch) (a : Nat) : Bool := l.textBase ≤ a && a < textStop l

/-- One of the `n` bytes at `a` lies in `Text`. -/
def touchesText (l : Launch) (a n : Nat) : Bool :=
  match n with
  | 0 => false
  | n + 1 => touchesText l a n || inText l (a + n)

/-- The range holds the `n`-byte access at `a`. -/
def AccessRange.covers (r : AccessRange) (a n : Nat) : Bool := r.size == n && r.first ≤ a && a ≤ r.last

/-- `Admits(addr, n)` (20_memory.md R29). An access that touches the program text is not admitted, so point 4
of 70_reset_and_hazards.md R90 holds of every state. -/
def admits (l : Launch) (a n : Nat) : Bool :=
  l.admitted.any (fun r => AccessRange.covers r a n) && !touchesText l a n

/-! ## The reservation table (10_state.md R22, R23, 20_memory.md R42) -/

/-- The number of the granule that holds the byte address `a`; a granule has 2^resGranuleLog2 bytes. -/
def granuleOf (l : Launch) (a : Nat) : Nat := a / 2 ^ l.resGranuleLog2

/-- `has_active_reservers()`: `Res` is not empty (10_state.md R23). -/
def hasActiveReservers (t : ReservationTable) : Bool := !t.active.isEmpty

/-- The table without its reservations on granule `g`, whoever owns them (20_memory.md R42, D11). -/
def invalidateGranule (g : Nat) (t : ReservationTable) : ReservationTable :=
  { t with active := t.active.filter (fun r => r.granule != g) }

/-- `invalidate_for_write(ea)`: `ResInvalidate(EA)`, and, where `removeSecond` says so, the reservations on
the granule of EA + 1 as well (20_memory.md R42, D11, D12). -/
def invalidateForWrite (l : Launch) (removeSecond : Bool) (ea : Addr) (t : ReservationTable) :
    ReservationTable :=
  let first := invalidateGranule (granuleOf l ea.toNat) t
  if removeSecond then invalidateGranule (granuleOf l (ea.toNat + 1)) first else first

/-- The store calls `invalidate_for_write`: the table is enabled and has an active reserver
(10_state.md R23, 20_memory.md R42). -/
def tableActs (t : ReservationTable) : Bool := t.enabled && hasActiveReservers t

/-- The two bytes of a half-word store at `ea` lie in different granules. -/
def crossesGranule (l : Launch) (ea : Addr) : Bool :=
  granuleOf l (ea.toNat + 1) != granuleOf l ea.toNat

/-- The free choice for a store at `ea` is to remove the reservations on its second granule (log 18). -/
def removesSecond (ea : Addr) (s : State) : Bool :=
  crossesGranule s.launch ea && Config.secondGranuleRemoved s.freeCount

/-- The reservation table after the reservation step of a store at `ea` (20_memory.md R42). -/
def reservationsAfter (ea : Addr) (s : State) : Option ReservationTable :=
  s.reservationTable.map fun t =>
    if tableActs t then invalidateForWrite s.launch (removesSecond ea s) ea t else t

/-- The count of free choices after a store at `ea`: one more if the store had one to make. -/
def freeCountAfter (ea : Addr) (s : State) : Nat :=
  if s.reservationTable.any tableActs && crossesGranule s.launch ea then s.freeCount + 1
  else s.freeCount

/-- The reservation step of a store at `ea` (20_memory.md R42, step 2 of R43). -/
def reservationStep (ea : Addr) (s : State) : State :=
  { s with reservationTable := reservationsAfter ea s, freeCount := freeCountAfter ea s }

/-! ## The actions of a store, in the order of 20_memory.md R43 -/

/-- Steps 2 and 3: the reservation step, then `MemWrite(EA, 2, v)`. -/
def storeHalfword (ea : Addr) (v : Half) (s : State) : State :=
  let r := reservationStep ea s
  { r with mem := r.mem.memWrite ea.toNat 2 v }

/-- Step 4 of an update form: `GPR[RA] <- zext_64(EA)` (40_store_halfword.md R73).
UNVERIFIED of the chip, as GK4 warns (log 19). Unsafe. -/
def writeBack (ra : Reg) (ea : Addr) (s : State) : State := s.writeReg ra (ea.setWidth 64)

/-- Step 5: `pc <- pc + 4` (10_state.md R17). -/
def advancePc (s : State) : State := { s with pc := s.pc + 4 }

/-! ## The checks of a store, before any effect (40_store_halfword.md R74, D19) -/

/-- An update form with RA field 0 is refused under the policy `refuse` (30_encoding.md R57) and goes on
under `snapshot` (40_store_halfword.md R71). -/
def guardForm (ra : Reg) (s : State) (k : Result) : Result :=
  if ra = 0 ∧ s.launch.invalidFormPolicy = .refuse then .refused .invalidForm else k

/-- An instruction that reads one of `rs` while it holds no value faults (10_state.md R26, D13). -/
def guardRegs (rs : List Reg) (s : State) (k : Result) : Result :=
  if rs.all s.holdsValue then k else .fault .unwrittenRegister

/-- The checks of a half-word store at `ea` from state `s`, in the order of 40_store_halfword.md R74; `t` is
the state the store leaves if all pass. -/
def guardStore (ea : Addr) (s t : State) : Result :=
  if ea = 0xFFFFFFFF then .fault .addressWrap
  else if touchesText s.launch ea.toNat 2 then .refused .storeIntoProgramText
  else if !admits s.launch ea.toNat 2 then .fault .storageNotAdmitted
  else if 2 ^ s.launch.pcw ≤ s.pc + 4 then .fault .addressWrap
  else .next t

end Sys2Proof.Machine
end

