-- ==== Sys2Proof/Machine/Operands.lean ====
section
/-!
DEFINITION. Every operand form of the four instructions: base, offset, effective address, value stored
(spec/40_store_halfword.md R64, R65, R70; spec/30_encoding.md R52, R53).
-/
namespace Sys2Proof.Machine

/-- The base operand of kind RA0: the 64-bit value zero if the field is 0, else `GPR[RA]`
(40_store_halfword.md R64). -/
def baseRA0 (ra : Reg) (s : State) : Dword := if ra = 0 then 0 else s.readReg ra

/-- The registers an operand of kind RA0 reads: none if the field is 0, else RA (10_state.md R15). -/
def regsRA0 (ra : Reg) : List Reg := if ra = 0 then [] else [ra]

/-- The base operand of an update form: `GPR[RA]`, register `r0` included, which only the policy `snapshot`
lets it reach (40_store_halfword.md R64, R71). -/
def baseRA (ra : Reg) (s : State) : Dword := s.readReg ra

/-- `sext_64(d)` (30_encoding.md R52). -/
def displacement (d : BitVec 16) : Dword := d.signExtend 64

/-- The index operand: `GPR[RB]`, `r0` included (30_encoding.md R53). -/
def index (rb : Reg) (s : State) : Dword := s.readReg rb

/-- `EA = trunc_32(base + offset)`, the sum modulo 2^64 (40_store_halfword.md R65). -/
def effectiveAddress (base offset : Dword) : Addr := (base + offset).setWidth 32

/-- The effective address of `sth` (40_store_halfword.md R66). -/
def addressSth (d : BitVec 16) (ra : Reg) (s : State) : Addr :=
  effectiveAddress (baseRA0 ra s) (displacement d)

/-- The effective address of `sthu` (40_store_halfword.md R67). -/
def addressSthu (d : BitVec 16) (ra : Reg) (s : State) : Addr :=
  effectiveAddress (baseRA ra s) (displacement d)

/-- The effective address of `sthux` (40_store_halfword.md R68). -/
def addressSthux (ra rb : Reg) (s : State) : Addr := effectiveAddress (baseRA ra s) (index rb s)

/-- The effective address of `sthx` (40_store_halfword.md R69). -/
def addressSthx (ra rb : Reg) (s : State) : Addr := effectiveAddress (baseRA0 ra s) (index rb s)

/-- The value stored: `GPR[RS][15:0]` (40_store_halfword.md R70). -/
def halfwordOf (rs : Reg) (s : State) : Half := (s.readReg rs).setWidth 16

end Sys2Proof.Machine
end

