-- ==== Sys2Proof/Machine/StoreHalfword.lean ====
section
/-!
DEFINITION. The meanings of the four half-word stores (spec/40_store_halfword.md R66 to R69), each over the
shared actions and checks of Machine/Ops.lean. Every register is read from the state before the instruction
(20_memory.md R43, 40_store_halfword.md R72). The checks stand in the order of 40_store_halfword.md R74.
-/
namespace Sys2Proof.Machine

/-- `sth`: store half word (40_store_halfword.md R66). -/
def execSth (rs : Reg) (d : BitVec 16) (ra : Reg) (s : State) : Result :=
  let ea := addressSth d ra s
  guardRegs (rs :: regsRA0 ra) s
    (guardStore ea s (advancePc (storeHalfword ea (halfwordOf rs s) s)))

/-- `sthu`: store half word with update (40_store_halfword.md R67, R71). -/
def execSthu (rs : Reg) (d : BitVec 16) (ra : Reg) (s : State) : Result :=
  let ea := addressSthu d ra s
  guardForm ra s (guardRegs [rs, ra] s
    (guardStore ea s (advancePc (writeBack ra ea (storeHalfword ea (halfwordOf rs s) s)))))

/-- `sthux`: store half word with update indexed (40_store_halfword.md R68, R71). -/
def execSthux (rs ra rb : Reg) (s : State) : Result :=
  let ea := addressSthux ra rb s
  guardForm ra s (guardRegs [rs, ra, rb] s
    (guardStore ea s (advancePc (writeBack ra ea (storeHalfword ea (halfwordOf rs s) s)))))

/-- `sthx`: store half word indexed (40_store_halfword.md R69). -/
def execSthx (rs ra rb : Reg) (s : State) : Result :=
  let ea := addressSthx ra rb s
  guardRegs (rs :: rb :: regsRA0 ra) s
    (guardStore ea s (advancePc (storeHalfword ea (halfwordOf rs s) s)))

end Sys2Proof.Machine
end

