-- ==== Sys2Proof/Syntax.lean ====
section
/-!
DEFINITION. The instructions: one constructor for each row of spec/opcode_table.json, with the operands in
the order of the assembler text (30_encoding.md R62).
-/
namespace Sys2Proof

/-- The four half-word stores (00_scope.md R3, 30_encoding.md R54). `ra` = 0 stands for the RA FIELD being 0;
what that means is decided by each instruction (40_store_halfword.md R64, R71). -/
inductive Instr where
  /-- Store Half Word: `sth RS, d(RA0)` (40_store_halfword.md R66). -/
  | sth (rs : Reg) (d : BitVec 16) (ra : Reg)
  /-- Store Half Word with Update: `sthu RS, d(RA)` (40_store_halfword.md R67). -/
  | sthu (rs : Reg) (d : BitVec 16) (ra : Reg)
  /-- Store Half Word with Update Indexed: `sthux RS, RA, RB` (40_store_halfword.md R68). -/
  | sthux (rs : Reg) (ra : Reg) (rb : Reg)
  /-- Store Half Word Indexed: `sthx RS, RA0, RB` (40_store_halfword.md R69). -/
  | sthx (rs : Reg) (ra : Reg) (rb : Reg)
  deriving DecidableEq, Repr

end Sys2Proof
end

