-- ==== Sys2Proof/Machine/Dispatch.lean ====
section
/-! DEFINITION. The dispatch: one arm for each instruction, each one call of its meaning. -/
namespace Sys2Proof.Machine

def exec (i : Instr) (s : State) : Host.Outcome State Fault Refusal :=
  match i with
  | .sth rs d ra => Sys2Proof.Machine.execSth rs d ra s
  | .sthu rs d ra => Sys2Proof.Machine.execSthu rs d ra s
  | .sthux rs ra rb => Sys2Proof.Machine.execSthux rs ra rb s
  | .sthx rs ra rb => Sys2Proof.Machine.execSthx rs ra rb s

end Sys2Proof.Machine
end

