-- ==== Sys2Proof/Decode.lean ====
section
/-!
DEFINITION. Decoding a 32-bit word, and the four bytes it is stored as, into an instruction or a named
rejection; and the encoder. From spec/30_encoding.md R48 to R59 and spec/20_memory.md R33.
-/
namespace Sys2Proof

/-- Why a word is none of the four instructions. -/
inductive DecodeError where
  /-- The word matches no row (30_encoding.md R59). -/
  | notInScope
  /-- The word matches an X-form row in every tested bit but `w[0]` (30_encoding.md R58). -/
  | reservedBitSet
  deriving DecidableEq, Repr

/-- One row of the opcode map: a word is an instance when `w AND mask = pattern` (30_encoding.md R55). -/
structure Row where
  mask : Word
  pattern : Word
  deriving DecidableEq, Repr

/-- The four rows, as 30_encoding.md R55 tabulates them. -/
def rowSth : Row := ⟨0xFC000000, 0xB0000000⟩
@[inherit_doc rowSth] def rowSthu : Row := ⟨0xFC000000, 0xB4000000⟩
@[inherit_doc rowSth] def rowSthux : Row := ⟨0xFC0007FF, 0x7C00036E⟩
@[inherit_doc rowSth] def rowSthx : Row := ⟨0xFC0007FF, 0x7C00032E⟩

/-- The whole opcode map, in the order of the table. -/
def rows : List Row := [rowSth, rowSthu, rowSthux, rowSthx]

/-- `w AND mask = pattern` (30_encoding.md R55). -/
def instanceOf (w : Word) (r : Row) : Bool := w &&& r.mask == r.pattern

/-- `w` matches the row in every tested bit but `w[0]`, and `w[0]` is 1 (30_encoding.md R56, R58). -/
def reservedBitOf (w : Word) (r : Row) : Bool := w &&& r.mask == r.pattern ||| 1

/-- The five-bit register field whose lowest bit is bit `lo` of the word (30_encoding.md R51). -/
def regField (w : Word) (lo : Nat) : Reg := Fin.ofNat 32 (w.extractLsb' lo 5).toNat

/-- `RS = w[25:21]` (30_encoding.md R51). -/
def fieldRS (w : Word) : Reg := regField w 21
/-- `RA = w[20:16]` (30_encoding.md R51). -/
def fieldRA (w : Word) : Reg := regField w 16
/-- `RB = w[15:11]` (30_encoding.md R51). -/
def fieldRB (w : Word) : Reg := regField w 11
/-- `d = w[15:0]` (30_encoding.md R51, R52). -/
def fieldD (w : Word) : BitVec 16 := w.extractLsb' 0 16

/-- Decoding, 30_encoding.md R56. An update form with RA = 0 decodes to its instruction: what becomes of it
depends on the launch's `InvalidFormPolicy`, so the meaning decides (30_encoding.md R57, log 10). -/
def decode (w : Word) : Except DecodeError Instr :=
  if instanceOf w rowSth then .ok (.sth (fieldRS w) (fieldD w) (fieldRA w))
  else if instanceOf w rowSthu then .ok (.sthu (fieldRS w) (fieldD w) (fieldRA w))
  else if instanceOf w rowSthux then .ok (.sthux (fieldRS w) (fieldRA w) (fieldRB w))
  else if instanceOf w rowSthx then .ok (.sthx (fieldRS w) (fieldRA w) (fieldRB w))
  else if reservedBitOf w rowSthux || reservedBitOf w rowSthx then .error .reservedBitSet
  else .error .notInScope

/-- The word at an address, from its four bytes in rising address order: big-endian (20_memory.md R33, D5). -/
def wordOfBytes (b0 b1 b2 b3 : Byte) : Word := b0 ++ b1 ++ b2 ++ b3

/-- Byte `k` (0 to 3, in rising address order) of a word as it lies in memory: big-endian (20_memory.md R33). -/
def byteOfWord (w : Word) (k : Nat) : Byte := w.extractLsb' (8 * (3 - k)) 8

/-- The decoder on the four bytes of an instruction, in rising address order. -/
def decodeBytes (b0 b1 b2 b3 : Byte) : Except DecodeError Instr := decode (wordOfBytes b0 b1 b2 b3)

/-- A register number in the place of a field whose lowest bit is bit `lo` of the word. -/
def placeReg (r : Reg) (lo : Nat) : Word := BitVec.ofNat 32 r.val <<< lo

/-- The word of an instruction, from the encodings of 40_store_halfword.md R66 to R69. -/
def encode : Instr → Word
  | .sth rs d ra => 0xB0000000 ||| placeReg rs 21 ||| placeReg ra 16 ||| d.setWidth 32
  | .sthu rs d ra => 0xB4000000 ||| placeReg rs 21 ||| placeReg ra 16 ||| d.setWidth 32
  | .sthux rs ra rb => 0x7C00036E ||| placeReg rs 21 ||| placeReg ra 16 ||| placeReg rb 11
  | .sthx rs ra rb => 0x7C00032E ||| placeReg rs 21 ||| placeReg ra 16 ||| placeReg rb 11

/-- The instruction word whose low `nbits` bits are those of `w` and whose other bits are 0. -/
def tableWord (nbits w : Nat) : Word := BitVec.ofNat 32 (w % 2 ^ nbits)

/-- The instruction the decoder reads from an opcode-table word: the word is laid out as four bytes,
big-endian, and given to the decoder. -/
def decodeTableWord (nbits w : Nat) : Option Instr :=
  let v := tableWord nbits w
  (decodeBytes (byteOfWord v 0) (byteOfWord v 1) (byteOfWord v 2) (byteOfWord v 3)).toOption

end Sys2Proof
end

