-- ==== Sys2Proof/Machine/Fetch.lean ====
section
/-!
DEFINITION. Fetching the instruction at the program counter, and loading a program from outside the machine
(spec/20_memory.md R33, R37, R44; spec/70_reset_and_hazards.md R90, R91).
-/
namespace Sys2Proof.Machine

/-- `pc` is at a word of the program text (70_reset_and_hazards.md R90 points 1 and 2). DESIGN CHOICE: an address
inside the text that is not a whole number of words from its base is at no word of it (logs 8, 27). Safe. -/
def fetchInText (s : State) : Bool :=
  s.launch.textBase ≤ s.pc && s.pc + 4 ≤ textStop s.launch && (s.pc - s.launch.textBase) % 4 == 0

/-- The word at `pc`, big-endian (20_memory.md R33); `none` where one of its bytes holds no value. -/
def fetchWord (s : State) : Option Word :=
  match s.mem.read s.pc, s.mem.read (s.pc + 1), s.mem.read (s.pc + 2), s.mem.read (s.pc + 3) with
  | some b0, some b1, some b2, some b3 => some (wordOfBytes b0 b1 b2 b3)
  | _, _, _, _ => none

/-- The refusal that stands for a decoder's rejection (30_encoding.md R58, R59). -/
def decodeRefusal : DecodeError → Refusal
  | .notInScope => .notInScope
  | .reservedBitSet => .reservedBitSet

/-- The fetch and its checks: no fetch is made at EndPc (70_reset_and_hazards.md R91); pc is a multiple of 4
(10_state.md R17); the text has a word at pc, its bytes hold values, and it is one of the four instructions
(30_encoding.md R56). Then `run` is given the instruction. DESIGN CHOICE: where there is no word at pc to match
a row (EndPc, outside the text, a byte without a value) the refusal is NotInScope, "this spec gives no
meaning" in the words of 30_encoding.md R59, so that the list of 60_exceptions.md R78 stays closed (logs 3, 8,
9). Safe. -/
def fetchAndRun (s : State) (run : Instr → Result) : Result :=
  if s.pc = s.launch.endPc then .refused .notInScope
  else if s.pc % 4 ≠ 0 then .refused .misalignedFetch
  else if !fetchInText s then .refused .notInScope
  else
    match fetchWord s with
    | none => .refused .notInScope
    | some w =>
      match decode w with
      | .error e => .refused (decodeRefusal e)
      | .ok i => run i

/-- The words, in order, written big-endian from address `a` on. -/
def writeWords (m : Memory) (a : Nat) (ws : List Word) : Memory :=
  match ws with
  | [] => m
  | w :: rest => writeWords (m.memWrite a 4 w) (a + 4) rest

/-- A program loaded from outside the machine: its words at `base`, `Text` these words, `pc` at the first,
and `EndPc` the address after the last (70_reset_and_hazards.md R90, R91; log 5). -/
def loadProgram (base : Nat) (ws : List Word) (s : State) : State :=
  { s with
    mem := writeWords s.mem base ws
    pc := base
    launch := { s.launch with
      textBase := base
      textWords := ws.length
      endPc := base + 4 * ws.length } }

end Sys2Proof.Machine
end

