-- ==== Sys2Proof/Machine/Step.lean ====
section
/-! DEFINITION. One step of the machine, and the placing of one word where the next step fetches. -/
namespace Sys2Proof.Machine

/-- One step (00_scope.md R10): fetch at pc, decode, execute. -/
def step (s : State) : Host.Outcome State Fault Refusal := fetchAndRun s (fun i => exec i s)

/-- `s` with the instruction word loaded as a program of one word at `pc` (log 5). -/
def State.withFetchWord (s : State) (nbits w : Nat) : State := loadProgram s.pc [tableWord nbits w] s

end Sys2Proof.Machine
end

