-- ==== Sys2Proof/Machine/Flags.lean ====
section
/-!
DEFINITION. The status bits. The spec gives no flag computation: no instruction in scope reads or writes a
flag (10_state.md R18, 40_store_halfword.md R74). What stands here is the reading of the bits it names.
-/
namespace Sys2Proof.Machine

/-- XER's bits CA, OV and SO, the flags 10_state.md R18 names. -/
def statusBits (s : State) : XerBits := s.xer

end Sys2Proof.Machine
end

