-- ==== Sys2Proof/WellFormed.lean ====
section
/-!
DEFINITION. Which instructions are valid forms (spec/30_encoding.md R56, R57).
-/
namespace Sys2Proof

/-- An update form needs a non-zero RA field; every other operand value of every instruction is valid
(30_encoding.md R56, R57). -/
def Instr.wellFormed : Instr → Bool
  | .sth _ _ _ => true
  | .sthu _ _ ra => ra != 0
  | .sthux _ ra _ => ra != 0
  | .sthx _ _ _ => true

end Sys2Proof
end

