-- ==== Sys2Proof/Safety.lean ====
section
/-!
DEFINITION. The terms claims are stated in: what each instruction stores where, when a store is accepted, the
effect of a store, the machine's invariant, a launched state, and a final state.
-/
namespace Sys2Proof.Machine

/-! ## What an instruction names -/

/-- The address an instruction stores to, by the function its meaning uses (40_store_halfword.md R65). -/
def storeAddress : Instr → State → Addr
  | .sth _ d ra, s => addressSth d ra s
  | .sthu _ d ra, s => addressSthu d ra s
  | .sthux _ ra rb, s => addressSthux ra rb s
  | .sthx _ ra rb, s => addressSthx ra rb s

/-- The register whose low half word is stored (40_store_halfword.md R70). -/
def sourceReg : Instr → Reg
  | .sth rs _ _ => rs
  | .sthu rs _ _ => rs
  | .sthux rs _ _ => rs
  | .sthx rs _ _ => rs

/-- The one register an instruction writes: RA of the update forms (10_state.md R15). -/
def updatedReg : Instr → Option Reg
  | .sth _ _ _ => none
  | .sthu _ _ ra => some ra
  | .sthux _ ra _ => some ra
  | .sthx _ _ _ => none

/-- The registers an instruction reads, for its value and for its address (10_state.md R15). -/
def registersRead : Instr → List Reg
  | .sth rs _ ra => rs :: regsRA0 ra
  | .sthu rs _ ra => [rs, ra]
  | .sthux rs ra rb => [rs, ra, rb]
  | .sthx rs ra rb => rs :: rb :: regsRA0 ra

/-- The register `r` takes part in the instruction's address (10_state.md R15): RA unless an RA0 field is 0,
and RB. -/
def addressReads : Instr → Reg → Bool
  | .sth _ _ ra, r => ra != 0 && r == ra
  | .sthu _ _ ra, r => r == ra
  | .sthux _ ra rb, r => r == ra || r == rb
  | .sthx _ ra rb, r => (ra != 0 && r == ra) || r == rb

/-! ## When a store goes through, and what it does -/

/-- The instruction is a valid form, or the launch lets invalid forms run as the emulator does
(30_encoding.md R57, 40_store_halfword.md R71). -/
def FormAllowed (i : Instr) (s : State) : Prop :=
  i.wellFormed = true ∨ s.launch.invalidFormPolicy = .snapshot

/-- Every register the instruction reads holds a value (10_state.md R26). -/
def RegistersHeld (i : Instr) (s : State) : Prop := ∀ r ∈ registersRead i, s.holdsValue r = true

/-- The half-word store at `ea` passes the checks of 40_store_halfword.md R74 on its address and on pc. -/
def StoreAccepted (ea : Addr) (s : State) : Prop :=
  ea ≠ 0xFFFFFFFF ∧ touchesText s.launch ea.toNat 2 = false ∧ admits s.launch ea.toNat 2 = true ∧
    s.pc + 4 < 2 ^ s.launch.pcw

/-- The instruction passes every check of 40_store_halfword.md R74: its form is allowed, the registers it reads
hold values, and its store is accepted. -/
def PassesChecks (i : Instr) (s : State) : Prop :=
  FormAllowed i s ∧ RegistersHeld i s ∧ StoreAccepted (storeAddress i s) s

/-- The set `Res` (10_state.md R22); empty where no table is present. -/
def reservations (s : State) : List Reservation :=
  match s.reservationTable with
  | none => []
  | some t => t.active

/-- The reservation table of `t` is one that 20_memory.md R42 allows after a store at `ea` in `s`: absent or
disabled tables stay as they are; an enabled one loses every reservation on the granule of EA, and, for one
choice of `second`, those on the granule of EA + 1 too; every other reservation stays. This is the spec's
reading by its decisions D11 and D12 (logs 17, 18). -/
def ReservationEffect (ea : Addr) (s t : State) : Prop :=
  (s.reservationTable = none → t.reservationTable = none) ∧
  ∀ b, s.reservationTable = some b → ∃ b', t.reservationTable = some b' ∧ b'.enabled = b.enabled ∧
    b'.active.Sublist b.active ∧
    (b.enabled = false → b' = b) ∧
    (b.enabled = true → ∃ second : Bool, ∀ r, r ∈ b'.active ↔ r ∈ b.active ∧
      r.granule ≠ granuleOf s.launch ea.toNat ∧
      ¬ (second = true ∧ r.granule = granuleOf s.launch (ea.toNat + 1)))

/-- What every half-word store of `v` at `ea` does beside a register update (20_memory.md R30, R42, R43;
10_state.md R17, R18, R24): the high byte at EA, the low byte at EA + 1, every other byte as it was, the
reservation step by decisions D11 and D12 (logs 17, 18), pc + 4, status bits and launch parameters as they
were. -/
def StoreEffect (ea : Addr) (v : Half) (s t : State) : Prop :=
  t.mem.read ea.toNat = some (v.extractLsb 15 8) ∧
  t.mem.read (ea.toNat + 1) = some (v.extractLsb 7 0) ∧
  (∀ a, a ≠ ea.toNat → a ≠ ea.toNat + 1 → t.mem.read a = s.mem.read a) ∧
  ReservationEffect ea s t ∧ t.pc = s.pc + 4 ∧ statusBits t = statusBits s ∧ t.launch = s.launch

/-- The low half word of `x` stands at `ea`, high byte first (40_store_halfword.md R70). -/
def StoredAt (ea : Addr) (x : Dword) (t : State) : Prop :=
  t.mem.read ea.toNat = some (x.extractLsb 15 8) ∧ t.mem.read (ea.toNat + 1) = some (x.extractLsb 7 0)

/-- `f` on the next state; a fault or a refusal as it is. -/
def mapNext (f : State → State) : Result → Result
  | .next t => .next (f t)
  | .fault r => .fault r
  | .refused r => .refused r

/-! ## Invariants and runs -/

/-- The machine's invariant: memory in its canonical form; pc a multiple of 4 below 2^PCW (10_state.md R17);
`Res` a set (10_state.md R22). -/
def MachineInv (s : State) : Prop :=
  s.mem.wf ∧ s.pc % 4 = 0 ∧ s.pc < 2 ^ s.launch.pcw ∧ (reservations s).Nodup

/-- Every byte of the program text holds a value (70_reset_and_hazards.md R90 point 2). -/
def TextHeld (s : State) : Prop := ∀ a, inText s.launch a = true → (s.mem.read a).isSome = true

/-- The run is over and the state final (70_reset_and_hazards.md R91). -/
def Final (s : State) : Prop := s.pc = s.launch.endPc

/-- The next step fetches the word `w`: the run is not over, pc is a multiple of 4 and at a word of the text,
and that word is `w` (10_state.md R17, 20_memory.md R33, 70_reset_and_hazards.md R90, R91). -/
def Fetches (s : State) (w : Word) : Prop :=
  ¬ Final s ∧ s.pc % 4 = 0 ∧ fetchInText s = true ∧ fetchWord s = some w

/-- Every register an instruction of a run from `s` reads holds a value when it is read
(70_reset_and_hazards.md R90 point 3, 10_state.md R26). -/
def RunReadsHeldRegisters (s : State) : Prop :=
  ∀ k t w i, Host.Core.run core k s = .next t → Fetches t w → decode w = .ok i → RegistersHeld i t

/-- What a launch must establish (70_reset_and_hazards.md R90). Point 6 (no fault or refusal recorded) holds of
every State; point 5 asks nothing but that `Res` be a set. DESIGN CHOICE: Text starts at a multiple of 4, which
R90 does not say; it asks that of pc only (log 27). Safe. -/
def Launched (s : State) : Prop :=
  MachineInv s ∧
  inText s.launch s.pc = true ∧
  (s.launch.textBase % 4 = 0 ∧ textStop s.launch ≤ addressCount ∧ TextHeld s) ∧
  RunReadsHeldRegisters s ∧
  (∀ a n k, admits s.launch a n = true → k < n → inText s.launch (a + k) = false) ∧
  s.launch.endPc % 4 = 0

/-- pc is inside a loaded text that EndPc closes, or at EndPc: the states of a straight-line run
(70_reset_and_hazards.md R90, R91). DESIGN CHOICE: the text starts at a multiple of 4 (log 27). Safe. -/
def OnText (s : State) : Prop :=
  s.pc % 4 = 0 ∧ s.launch.textBase % 4 = 0 ∧ s.launch.endPc = textStop s.launch ∧
    s.launch.textBase ≤ s.pc ∧ s.pc ≤ textStop s.launch ∧ TextHeld s

/-- A run of at most `k` steps, over at EndPc: it stops there with its state final and makes no further step
(70_reset_and_hazards.md R91). -/
def runToEnd : Nat → State → Result
  | 0, s => .next s
  | k + 1, s =>
    if s.pc = s.launch.endPc then .next s
    else
      match step s with
      | .next t => runToEnd k t
      | .fault r => .fault r
      | .refused r => .refused r

end Sys2Proof.Machine
end

