-- ==== Sys2Proof/Certificates/Slice0/Obligations.lean ====
section
/-! DEFINITION. The statements for the provers. -/

open Sys2Proof Sys2Proof.Machine

/-! ## Encoding -/

/-- Decode and encode agree: the word of every instruction, and the four bytes it is stored as, decode to
that instruction, at every value of every operand (30_encoding.md R49 to R56, 40_store_halfword.md R66 to
R69). -/
def Obligations.DecodeOfEncodeIsTheInstruction : Prop :=
  ∀ i : Instr, decode (encode i) = .ok i ∧
    decodeBytes (byteOfWord (encode i) 0) (byteOfWord (encode i) 1) (byteOfWord (encode i) 2)
      (byteOfWord (encode i) 3) = .ok i

/-- Every word that decodes is the word of the instruction it decodes to: no bit of a word is ignored
(30_encoding.md R51, R55). -/
def Obligations.EncodeOfDecodeIsTheWord : Prop :=
  ∀ (w : Word) (i : Instr), decode w = .ok i → encode i = w

/-- A word decodes to an instruction of a row exactly where `w AND mask = match` with the row's figures, and
no two rows match one word (30_encoding.md R55). -/
def Obligations.OpcodeRowsMatchByMask : Prop :=
  ∀ w : Word,
    ((∃ rs d ra, decode w = .ok (.sth rs d ra)) ↔ w &&& 0xFC000000#32 = 0xB0000000#32) ∧
    ((∃ rs d ra, decode w = .ok (.sthu rs d ra)) ↔ w &&& 0xFC000000#32 = 0xB4000000#32) ∧
    ((∃ rs ra rb, decode w = .ok (.sthux rs ra rb)) ↔ w &&& 0xFC0007FF#32 = 0x7C00036E#32) ∧
    ((∃ rs ra rb, decode w = .ok (.sthx rs ra rb)) ↔ w &&& 0xFC0007FF#32 = 0x7C00032E#32) ∧
    (∀ r ∈ rows, ∀ r' ∈ rows, instanceOf w r = true → instanceOf w r' = true → r = r')

/-- The fields of a decoded word: OPCD = w[31:26], RS = w[25:21], RA = w[20:16], d = w[15:0]; RB = w[15:11],
XO = w[10:1], Rc = w[0] (30_encoding.md R51, with the figures of R54). -/
def Obligations.DecodedFieldsAreTheWordsBits : Prop :=
  ∀ w : Word,
    (∀ rs d ra, decode w = .ok (.sth rs d ra) → w.extractLsb 31 26 = 44 ∧
      rs.val = (w.extractLsb 25 21).toNat ∧ ra.val = (w.extractLsb 20 16).toNat ∧
      d = w.extractLsb 15 0) ∧
    (∀ rs d ra, decode w = .ok (.sthu rs d ra) → w.extractLsb 31 26 = 45 ∧
      rs.val = (w.extractLsb 25 21).toNat ∧ ra.val = (w.extractLsb 20 16).toNat ∧
      d = w.extractLsb 15 0) ∧
    (∀ rs ra rb, decode w = .ok (.sthux rs ra rb) → w.extractLsb 31 26 = 31 ∧
      rs.val = (w.extractLsb 25 21).toNat ∧ ra.val = (w.extractLsb 20 16).toNat ∧
      rb.val = (w.extractLsb 15 11).toNat ∧ w.extractLsb 10 1 = 439 ∧ w.extractLsb 0 0 = 0) ∧
    (∀ rs ra rb, decode w = .ok (.sthx rs ra rb) → w.extractLsb 31 26 = 31 ∧
      rs.val = (w.extractLsb 25 21).toNat ∧ ra.val = (w.extractLsb 20 16).toNat ∧
      rb.val = (w.extractLsb 15 11).toNat ∧ w.extractLsb 10 1 = 407 ∧ w.extractLsb 0 0 = 0)

/-- A word that is `sthux` or `sthx` in OPCD and XO and has Rc = 1, and no other word, is rejected as
ReservedBitSet; a step that fetches one is refused so. The spec's decision D4 (30_encoding.md R58, log 11). -/
def Obligations.RecordBitSetIsRefused : Prop :=
  (∀ w : Word, decode w = .error .reservedBitSet ↔
    w.extractLsb 31 26 = 31 ∧ (w.extractLsb 10 1 = 439 ∨ w.extractLsb 10 1 = 407) ∧
      w.extractLsb 0 0 = 1) ∧
  (∀ (s : State) (w : Word), Fetches s w → w.extractLsb 31 26 = 31 →
    (w.extractLsb 10 1 = 439 ∨ w.extractLsb 10 1 = 407) → w.extractLsb 0 0 = 1 →
    step s = .refused .reservedBitSet)

/-- A word whose OPCD is none of 44, 45 and 31, or is 31 with an XO other than 439 and 407, and no other
word, is rejected as NotInScope; a step that fetches one is refused so. The spec's decision D2
(30_encoding.md R59, log 11). -/
def Obligations.OtherWordsAreNotInScope : Prop :=
  (∀ w : Word, decode w = .error .notInScope ↔
    w.extractLsb 31 26 ≠ 44 ∧ w.extractLsb 31 26 ≠ 45 ∧
      ¬ (w.extractLsb 31 26 = 31 ∧ (w.extractLsb 10 1 = 439 ∨ w.extractLsb 10 1 = 407))) ∧
  (∀ (s : State) (w : Word), Fetches s w → w.extractLsb 31 26 ≠ 44 → w.extractLsb 31 26 ≠ 45 →
    ¬ (w.extractLsb 31 26 = 31 ∧ (w.extractLsb 10 1 = 439 ∨ w.extractLsb 10 1 = 407)) →
    step s = .refused .notInScope)

/-- Words written out from the spec's encodings decode to the instructions they stand for
(95_test_vectors.md V2, V16, V20, V17, V39). -/
def Obligations.SampleWordsDecode : Prop :=
  decode 0xB064FFFE = .ok (.sth 3 0xFFFE 4) ∧ decode 0xB461FFE0 = .ok (.sthu 3 0xFFE0 1) ∧
  decode 0x7C642B6E = .ok (.sthux 3 4 5) ∧ decode 0x7C602B2E = .ok (.sthx 3 0 5) ∧
  decode 0xB7FFFFFF = .ok (.sthu 31 0xFFFF 31)

/-! ## Fetch and step -/

/-- The fetched word is `byte(pc) ++ byte(pc+1) ++ byte(pc+2) ++ byte(pc+3)`, so byte(pc) holds the primary
opcode in its top six bits. The spec's decision D5 (20_memory.md R33, log 7). -/
def Obligations.FetchIsBigEndian : Prop :=
  ∀ (s : State) (b0 b1 b2 b3 : Byte), s.mem.read s.pc = some b0 → s.mem.read (s.pc + 1) = some b1 →
    s.mem.read (s.pc + 2) = some b2 → s.mem.read (s.pc + 3) = some b3 →
    ∃ w : Word, fetchWord s = some w ∧ w = b0 ++ b1 ++ b2 ++ b3 ∧
      w.extractLsb 31 26 = b0.extractLsb 7 2

/-- A step runs the decoded instruction: where the next step fetches a word that decodes to `i`, the step is
exec of `i` on the same state, and nothing else (00_scope.md R10, 30_encoding.md R56). -/
def Obligations.StepRunsTheDecodedInstruction : Prop :=
  ∀ (s : State) (w : Word) (i : Instr), Fetches s w → decode w = .ok i → step s = exec i s

/-- Where a step fetches nothing it is refused: at EndPc, where the run is over, as NotInScope; else at a pc that
is no multiple of 4 as MisalignedFetch; else at a pc not at a word of the text, and at a text byte that holds no
value, as NotInScope. MisalignedFetch is the spec's decision D16 (10_state.md R17); the three others are the
model's choice of a reason from the closed list of 60_exceptions.md R78 (logs 3, 8, 9). -/
def Obligations.StepWithoutAFetchStopsByName : Prop :=
  ∀ s : State,
    (Final s → step s = .refused .notInScope) ∧
    (¬ Final s → s.pc % 4 ≠ 0 → step s = .refused .misalignedFetch) ∧
    (¬ Final s → s.pc % 4 = 0 → fetchInText s = false → step s = .refused .notInScope) ∧
    (¬ Final s → s.pc % 4 = 0 → fetchInText s = true → fetchWord s = none →
      step s = .refused .notInScope)

/-- The word placed by `withFetchWord` is the one the next step fetches, decodes and runs, and nothing but
memory at pc, the text and EndPc differs from before (the model's way to load a program, log 5). -/
def Obligations.PlacedWordIsTheNextInstruction : Prop :=
  ∀ (s : State) (w : Word), s.pc % 4 = 0 →
    Fetches (s.withFetchWord 32 w.toNat) w ∧
    (∀ i, decode w = .ok i → decodeTableWord 32 w.toNat = some i ∧
      step (s.withFetchWord 32 w.toNat) = exec i (s.withFetchWord 32 w.toNat)) ∧
    (∀ a, a < s.pc ∨ s.pc + 4 ≤ a → (s.withFetchWord 32 w.toNat).mem.read a = s.mem.read a) ∧
    { s.withFetchWord 32 w.toNat with mem := s.mem, launch := s.launch } = s ∧
    (s.withFetchWord 32 w.toNat).launch =
      { s.launch with textBase := s.pc, textWords := 1, endPc := s.pc + 4 }

/-- A loaded program stands in memory word after word, and memory outside it is as before
(70_reset_and_hazards.md R90 point 2; log 5). -/
def Obligations.LoadedWordsStandInOrder : Prop :=
  ∀ (s : State) (base : Nat) (ws : List Word),
    (∀ (k : Nat) (h : k < ws.length),
      fetchWord { loadProgram base ws s with pc := base + 4 * k } = some ws[k]) ∧
    (∀ a, a < base ∨ base + 4 * ws.length ≤ a → (loadProgram base ws s).mem.read a = s.mem.read a)

/-- Loading a program of at least one word at an aligned base inside the address space, in a state whose
registers all hold values, gives a launched state: every premise of 70_reset_and_hazards.md R90 holds. How a
program is loaded, and that its base is aligned, are the model's choices (logs 5, 27). -/
def Obligations.LoadedProgramIsLaunched : Prop :=
  ∀ (s : State) (base : Nat) (ws : List Word), s.mem.wf → (reservations s).Nodup →
    (∀ r, s.holdsValue r = true) → base % 4 = 0 → ws ≠ [] → base + 4 * ws.length ≤ 2 ^ 32 →
    base < 2 ^ s.launch.pcw →
    Launched (loadProgram base ws s) ∧ OnText (loadProgram base ws s)

/-! ## Results -/

/-- `sth` (40_store_halfword.md R66): where the registers it reads hold values and its store is accepted it
completes; the low half of RS is stored at `trunc_32((0 if RA = 0 else GPR[RA]) + sext_64(d))`, and every register
is as before. In `StoreEffect` the reservation step is by the spec's decisions D11 and D12 (log 17 DEDUCED, log 18
DESIGN CHOICE: the model's choice, not these rules'); that the registers read hold values is asked by decision D13
(10_state.md R26, log 1). -/
def Obligations.SthStoresTheLowHalf : Prop :=
  ∀ (rs : Reg) (d : BitVec 16) (ra : Reg) (s : State),
    addressSth d ra s = ((if ra = 0 then 0 else s.readReg ra) + d.signExtend 64).setWidth 32 ∧
    (RegistersHeld (.sth rs d ra) s → StoreAccepted (addressSth d ra s) s →
      ∃ t, exec (.sth rs d ra) s = .next t ∧
        StoreEffect (addressSth d ra s) ((s.readReg rs).setWidth 16) s t ∧
        ∀ r, t.readReg r = s.readReg r ∧ t.holdsValue r = s.holdsValue r)

/-- `sthu` (40_store_halfword.md R67, R71): where its form is allowed, the registers it reads hold values and its
store is accepted it completes; the low half of the old RS is stored at `trunc_32(GPR[RA] + sext_64(d))`, RA becomes
that address zero-extended, and every other register is as before. In `StoreEffect` the reservation step is by the
spec's decisions D11 and D12 (log 17 DEDUCED, log 18 DESIGN CHOICE: the model's choice, not these rules'); that the
registers read hold values is asked by decision D13 (10_state.md R26, log 1). -/
def Obligations.SthuStoresAndUpdates : Prop :=
  ∀ (rs : Reg) (d : BitVec 16) (ra : Reg) (s : State),
    addressSthu d ra s = (s.readReg ra + d.signExtend 64).setWidth 32 ∧
    (ra ≠ 0 ∨ s.launch.invalidFormPolicy = .snapshot → RegistersHeld (.sthu rs d ra) s →
      StoreAccepted (addressSthu d ra s) s →
      ∃ t, exec (.sthu rs d ra) s = .next t ∧
        StoreEffect (addressSthu d ra s) ((s.readReg rs).setWidth 16) s t ∧
        ∀ r, t.readReg r = (if r = ra then (addressSthu d ra s).setWidth 64 else s.readReg r) ∧
          t.holdsValue r = s.holdsValue r)

/-- `sthux` (40_store_halfword.md R68, R71): where its form is allowed, the registers it reads hold values and its
store is accepted it completes; the low half of the old RS is stored at `trunc_32(GPR[RA] + GPR[RB])`, RA becomes
that address zero-extended, and every other register is as before. In `StoreEffect` the reservation step is by the
spec's decisions D11 and D12 (log 17 DEDUCED, log 18 DESIGN CHOICE: the model's choice, not these rules'); that the
registers read hold values is asked by decision D13 (10_state.md R26, log 1). -/
def Obligations.SthuxStoresAndUpdates : Prop :=
  ∀ (rs ra rb : Reg) (s : State),
    addressSthux ra rb s = (s.readReg ra + s.readReg rb).setWidth 32 ∧
    (ra ≠ 0 ∨ s.launch.invalidFormPolicy = .snapshot → RegistersHeld (.sthux rs ra rb) s →
      StoreAccepted (addressSthux ra rb s) s →
      ∃ t, exec (.sthux rs ra rb) s = .next t ∧
        StoreEffect (addressSthux ra rb s) ((s.readReg rs).setWidth 16) s t ∧
        ∀ r, t.readReg r = (if r = ra then (addressSthux ra rb s).setWidth 64 else s.readReg r) ∧
          t.holdsValue r = s.holdsValue r)

/-- `sthx` (40_store_halfword.md R69): where the registers it reads hold values and its store is accepted it
completes; the low half of RS is stored at `trunc_32((0 if RA = 0 else GPR[RA]) + GPR[RB])`, and every register is
as before. In `StoreEffect` the reservation step is by the spec's decisions D11 and D12 (log 17 DEDUCED, log 18
DESIGN CHOICE: the model's choice, not these rules'); that the registers read hold values is asked by decision D13
(10_state.md R26, log 1). -/
def Obligations.SthxStoresTheLowHalf : Prop :=
  ∀ (rs ra rb : Reg) (s : State),
    addressSthx ra rb s = ((if ra = 0 then 0 else s.readReg ra) + s.readReg rb).setWidth 32 ∧
    (RegistersHeld (.sthx rs ra rb) s → StoreAccepted (addressSthx ra rb s) s →
      ∃ t, exec (.sthx rs ra rb) s = .next t ∧
        StoreEffect (addressSthx ra rb s) ((s.readReg rs).setWidth 16) s t ∧
        ∀ r, t.readReg r = s.readReg r ∧ t.holdsValue r = s.holdsValue r)

/-! ## Operands, values and frame -/

/-- The base operand: for `sth` and `sthx` zero where the RA field is 0, else GPR[RA]; for `sthu` and `sthux`
GPR[RA], and the RA field must not be 0: such a form is no valid one (40_store_halfword.md R64). -/
def Obligations.BaseOperandByKind : Prop :=
  ∀ (rs ra rb : Reg) (d : BitVec 16) (s : State),
    storeAddress (.sth rs d ra) s
      = effectiveAddress (if ra = 0 then 0 else s.readReg ra) (displacement d) ∧
    storeAddress (.sthx rs ra rb) s
      = effectiveAddress (if ra = 0 then 0 else s.readReg ra) (s.readReg rb) ∧
    storeAddress (.sthu rs d ra) s = effectiveAddress (s.readReg ra) (displacement d) ∧
    storeAddress (.sthux rs ra rb) s = effectiveAddress (s.readReg ra) (s.readReg rb) ∧
    Instr.wellFormed (.sth rs d ra) = true ∧ Instr.wellFormed (.sthx rs ra rb) = true ∧
    (Instr.wellFormed (.sthu rs d ra) = true ↔ ra ≠ 0) ∧
    (Instr.wellFormed (.sthux rs ra rb) = true ↔ ra ≠ 0)

/-- The displacement counts bytes and is signed, -32768 to 32767, sign-extended and not scaled: as numbers,
the address of a D form is base + d modulo 2^32 (30_encoding.md R52, 40_store_halfword.md R75). -/
def Obligations.DisplacementIsASignedByteCount : Prop :=
  ∀ (rs ra : Reg) (d : BitVec 16) (s : State),
    -32768 ≤ d.toInt ∧ d.toInt ≤ 32767 ∧
    ((storeAddress (.sth rs d ra) s).toNat : Int)
      = (((if ra = 0 then 0 else s.readReg ra).toNat : Int) + d.toInt) % 2 ^ 32 ∧
    ((storeAddress (.sthu rs d ra) s).toNat : Int)
      = (((s.readReg ra).toNat : Int) + d.toInt) % 2 ^ 32

/-- The address is the sum of the low 32 bits of base and offset modulo 2^32: for every instruction the high
32 bits of the base and index registers have no influence on it (40_store_halfword.md R65). -/
def Obligations.AddressIgnoresHighRegisterHalves : Prop :=
  (∀ base offset : Dword, effectiveAddress base offset = (base + offset).setWidth 32 ∧
    effectiveAddress base offset = base.extractLsb' 0 32 + offset.extractLsb' 0 32) ∧
  ∀ (i : Instr) (s s' : State),
    (∀ r, addressReads i r = true → (s.readReg r).setWidth 32 = (s'.readReg r).setWidth 32) →
    storeAddress i s = storeAddress i s'

/-- The value stored: every instruction, where it goes through, leaves GPR[RS][15:8] at EA and GPR[RS][7:0] at
EA + 1, of the register as it was before, and does not modify RS but where RS is also the RA an update form
writes (40_store_halfword.md R70). -/
def Obligations.LowHalfOfSourceIsStored : Prop :=
  ∀ (i : Instr) (s : State), PassesChecks i s →
    ∃ t, exec i s = .next t ∧
      t.mem.read (storeAddress i s).toNat = some ((s.readReg (sourceReg i)).extractLsb 15 8) ∧
      t.mem.read ((storeAddress i s).toNat + 1) = some ((s.readReg (sourceReg i)).extractLsb 7 0) ∧
      (updatedReg i ≠ some (sourceReg i) → t.readReg (sourceReg i) = s.readReg (sourceReg i))

/-- The high 48 bits of RS are ignored: where RS holds a value and takes no part in the address, putting there any
value with the same low half changes nothing of what the instruction does, RS itself apart (40_store_halfword.md
R70). -/
def Obligations.HighSourceBitsDoNotMatter : Prop :=
  ∀ (i : Instr) (s : State) (x : Dword), addressReads i (sourceReg i) = false →
    updatedReg i ≠ some (sourceReg i) → s.holdsValue (sourceReg i) = true →
    x.setWidth 16 = (s.readReg (sourceReg i)).setWidth 16 →
    exec i (s.writeReg (sourceReg i) x) = mapNext (fun t => t.writeReg (sourceReg i) x) (exec i s)

/-- A register an instruction does not read does not matter: changing it changes the outcome by that register alone,
whether or not it held a value before, so in particular `sth` and `sthx` with RA field 0 do not read r0 through RA
(10_state.md R14, R15). -/
def Obligations.UnreadRegistersDoNotMatter : Prop :=
  ∀ (i : Instr) (s : State) (q : Reg) (x : Dword), addressReads i q = false → q ≠ sourceReg i →
    updatedReg i ≠ some q → exec i (s.writeReg q x) = mapNext (fun t => t.writeReg q x) (exec i s)

/-- The update forms write `zext_64(EA)` to RA: the low 32 bits are the address and the high 32 bits are 0,
whatever RA held before (40_store_halfword.md R73; UNVERIFIED of the chip, log 19). -/
def Obligations.UpdateWritesZeroExtendedAddress : Prop :=
  ∀ (i : Instr) (ra : Reg) (s : State), updatedReg i = some ra → PassesChecks i s →
    ∃ t, exec i s = .next t ∧ (t.readReg ra).extractLsb 31 0 = storeAddress i s ∧
      (t.readReg ra).extractLsb 63 32 = 0

/-- The same register in two fields (40_store_halfword.md R72), for every pair of fields of every instruction: an
update form with RS = RA stores the low half of the old value and then sets the register to the address;
`sthux rS, rX, rX` uses the old rX twice in the sum (rS = rX included), and `sthux rX, rA, rX` the old rX in the
sum and as the value stored; for the forms without update, `sth rX, d(rX)`, `sthx rS, rX, rX` (rS = rX included),
`sthx rX, rX, rB` and `sthx rX, rA, rX`, a repeated register is read twice and every register stays. -/
def Obligations.SameRegisterInTwoFieldsReadsOldValue : Prop :=
  ∀ (x rs ra rb : Reg) (d : BitVec 16) (s : State),
    (PassesChecks (.sthu x d x) s → ∃ t, exec (.sthu x d x) s = .next t ∧
      StoredAt (addressSthu d x s) (s.readReg x) t ∧ t.readReg x = (addressSthu d x s).setWidth 64) ∧
    (PassesChecks (.sthux x x rb) s → ∃ t, exec (.sthux x x rb) s = .next t ∧
      StoredAt (addressSthux x rb s) (s.readReg x) t ∧
      t.readReg x = (addressSthux x rb s).setWidth 64) ∧
    (PassesChecks (.sthux rs x x) s → ∃ t, exec (.sthux rs x x) s = .next t ∧
      StoredAt (2 * (s.readReg x).setWidth 32) (s.readReg rs) t ∧
      t.readReg x = (2 * (s.readReg x).setWidth 32 : BitVec 32).setWidth 64) ∧
    (PassesChecks (.sthux x ra x) s → ∃ t, exec (.sthux x ra x) s = .next t ∧
      StoredAt ((s.readReg ra + s.readReg x).setWidth 32) (s.readReg x) t ∧
      t.readReg ra = ((s.readReg ra + s.readReg x).setWidth 32 : BitVec 32).setWidth 64 ∧
      (x ≠ ra → t.readReg x = s.readReg x)) ∧
    (PassesChecks (.sthx rs x x) s → ∃ t, exec (.sthx rs x x) s = .next t ∧
      StoredAt (if x = 0 then (s.readReg 0).setWidth 32 else 2 * (s.readReg x).setWidth 32)
        (s.readReg rs) t ∧
      ∀ r, t.readReg r = s.readReg r) ∧
    (PassesChecks (.sthx x x rb) s → ∃ t, exec (.sthx x x rb) s = .next t ∧
      StoredAt (((if x = 0 then 0 else s.readReg x) + s.readReg rb).setWidth 32) (s.readReg x) t ∧
      ∀ r, t.readReg r = s.readReg r) ∧
    (PassesChecks (.sthx x ra x) s → ∃ t, exec (.sthx x ra x) s = .next t ∧
      StoredAt (((if ra = 0 then 0 else s.readReg ra) + s.readReg x).setWidth 32) (s.readReg x) t ∧
      ∀ r, t.readReg r = s.readReg r) ∧
    (PassesChecks (.sth x d x) s → ∃ t, exec (.sth x d x) s = .next t ∧
      StoredAt (addressSth d x s) (s.readReg x) t ∧ ∀ r, t.readReg r = s.readReg r)

/-- The frame of every instruction: where it goes through it changes two bytes of memory (those at EA and EA + 1),
pc, Res, which only may lose members, and for the update forms GPR[RA]; every other register, which registers hold
values, every other byte, the status bits, the table's presence and enablement and the launch parameters are as
before (10_state.md R27, R18, R24). -/
def Obligations.InstructionFrame : Prop :=
  ∀ (i : Instr) (s t : State), exec i s = .next t →
    (∀ r, updatedReg i ≠ some r → t.readReg r = s.readReg r) ∧
    (∀ r, t.holdsValue r = s.holdsValue r) ∧
    (∀ a, a ≠ (storeAddress i s).toNat → a ≠ (storeAddress i s).toNat + 1 →
      t.mem.read a = s.mem.read a) ∧
    statusBits t = statusBits s ∧ t.launch = s.launch ∧
    t.reservationTable.map (·.enabled) = s.reservationTable.map (·.enabled) ∧
    (reservations t).Sublist (reservations s)

/-- No alignment requirement: wherever the form is allowed, the registers read hold values, both bytes exist, lie
outside the text and are admitted, and pc + 4 is below 2^PCW, whether EA is odd or even, every instruction completes
and leaves memory as MemWrite(EA, 2, GPR[RS][15:0]) leaves it, its bytes at EA and EA + 1 in that order
(20_memory.md R35). -/
def Obligations.StoreNeedsNoAlignment : Prop :=
  ∀ (i : Instr) (s : State), FormAllowed i s → RegistersHeld i s →
    (storeAddress i s).toNat + 1 < 2 ^ 32 →
    inText s.launch (storeAddress i s).toNat = false →
    inText s.launch ((storeAddress i s).toNat + 1) = false →
    admits s.launch (storeAddress i s).toNat 2 = true → s.pc + 4 < 2 ^ s.launch.pcw →
    ∃ t, exec i s = .next t ∧
      t.mem = s.mem.memWrite (storeAddress i s).toNat 2 ((s.readReg (sourceReg i)).setWidth 16) ∧
      t.mem.read (storeAddress i s).toNat = some ((s.readReg (sourceReg i)).extractLsb 15 8) ∧
      t.mem.read ((storeAddress i s).toNat + 1) = some ((s.readReg (sourceReg i)).extractLsb 7 0)

/-- Every instruction that goes through advances pc by exactly 4 (10_state.md R17), and goes through only where
pc + 4 is below 2^PCW: this second clause is the spec's decision D6 (log 6, DESIGN CHOICE: pc never wraps). -/
def Obligations.PcAdvancesByFour : Prop :=
  ∀ (i : Instr) (s t : State), exec i s = .next t → t.pc = s.pc + 4 ∧ s.pc + 4 < 2 ^ s.launch.pcw

/-- No general register is hard-wired: each, r0 included, holds what was last written to it, and a write
leaves the others alone. The zero of an RA field 0 is the operand's, in `sth` and `sthx`; named by RS in any of the
four, or by RB in `sthux` and `sthx` whatever RA is, r0 is read as it is, with no test for zero
(10_state.md R14). -/
def Obligations.NoRegisterIsHardwired : Prop :=
  (∀ (s : State) (r : Reg) (x : Dword), (s.writeReg r x).readReg r = x ∧
    ∀ q, q ≠ r → (s.writeReg r x).readReg q = s.readReg q) ∧
  (∀ (s : State) (rs ra rb : Reg) (d : BitVec 16),
    storeAddress (.sth rs d 0) s = effectiveAddress 0 (displacement d) ∧
    storeAddress (.sthx rs 0 rb) s = effectiveAddress 0 (s.readReg rb) ∧
    storeAddress (.sthx rs 0 0) s = effectiveAddress 0 (s.readReg 0) ∧
    (ra ≠ 0 → storeAddress (.sthx rs ra 0) s = effectiveAddress (s.readReg ra) (s.readReg 0)) ∧
    storeAddress (.sthux rs ra 0) s = effectiveAddress (s.readReg ra) (s.readReg 0)) ∧
  (∀ (i : Instr) (s t : State), sourceReg i = 0 → exec i s = .next t →
    t.mem.read (storeAddress i s).toNat = some ((s.readReg 0).extractLsb 15 8) ∧
    t.mem.read ((storeAddress i s).toNat + 1) = some ((s.readReg 0).extractLsb 7 0))

/-- No instruction reads data memory: run with any other memory, it goes through alike, and only memory
differs, each time by the same write (20_memory.md R38). -/
def Obligations.StoresReadNoMemory : Prop :=
  ∀ (i : Instr) (s : State) (m : Memory),
    exec i { s with mem := m } = mapNext (fun t => { t with
      mem := m.memWrite (storeAddress i s).toNat 2 ((s.readReg (sourceReg i)).setWidth 16) }) (exec i s)

/-! ## Memory -/

/-- `MemWrite(addr, n, v)`: for each k below n the byte at addr + k becomes v[8(n-k)-1 : 8(n-k-1)], and no
other byte changes; for n = 2 the bytes are v[15:8] and v[7:0]; and an instruction's MemWrite is made only
where EA + 2 - 1 ≤ 2^32 - 1 and Admits(EA, 2) (20_memory.md R30). -/
def Obligations.MemWriteIsBigEndian : Prop :=
  (∀ (m : Memory) (a n : Nat) (v : BitVec (8 * n)), a + n ≤ 2 ^ 32 →
    (∀ k, k < n → (m.memWrite a n v).read (a + k)
      = some (BitVec.ofNat 8 (v.toNat / 2 ^ (8 * (n - k - 1))))) ∧
    (∀ b, b < a ∨ a + n ≤ b → (m.memWrite a n v).read b = m.read b)) ∧
  (∀ (m : Memory) (a : Nat) (v : Half), a + 2 ≤ 2 ^ 32 →
    (m.memWrite a 2 v).read a = some (v.extractLsb 15 8) ∧
    (m.memWrite a 2 v).read (a + 1) = some (v.extractLsb 7 0)) ∧
  (∀ (i : Instr) (s t : State), exec i s = .next t →
    (storeAddress i s).toNat + 2 - 1 ≤ 2 ^ 32 - 1 ∧
      admits s.launch (storeAddress i s).toNat 2 = true)

/-- What mixed-width reads see after MemWrite(A, 2, v): the bytes at A and A + 1, v at A, and v[7:0] ++ b at
A + 1, b the byte at A + 2; and of two stores at A and A + 1 the later one's bytes stand (20_memory.md R34,
which the spec derives from R30). -/
def Obligations.MixedWidthReadsAfterAStore : Prop :=
  ∀ (m : Memory) (a : Nat) (v u : Half) (b : Byte),
    (m.memWrite a 2 v).memRead a 1 = some (v.extractLsb 15 8) ∧
    (m.memWrite a 2 v).memRead (a + 1) 1 = some (v.extractLsb 7 0) ∧
    (m.memWrite a 2 v).memRead a 2 = some v ∧
    (m.read (a + 2) = some b →
      (m.memWrite a 2 v).memRead (a + 1) 2 = some (v.extractLsb 7 0 ++ b)) ∧
    ((m.memWrite a 2 v).memWrite (a + 1) 2 u).memRead a 2
      = some (v.extractLsb 15 8 ++ u.extractLsb 15 8) ∧
    ((m.memWrite (a + 1) 2 u).memWrite a 2 v).memRead (a + 1) 2
      = some (v.extractLsb 7 0 ++ u.extractLsb 7 0)

/-- Program order: after two instructions the later one's two bytes stand whole, and the earlier one's stand
where the later one did not write (20_memory.md R39). -/
def Obligations.LaterStoreOverwritesEarlier : Prop :=
  ∀ (i j : Instr) (s t u : State), exec i s = .next t → exec j t = .next u →
    let ei := (storeAddress i s).toNat
    let ej := (storeAddress j t).toNat
    u.mem.read ej = some ((t.readReg (sourceReg j)).extractLsb 15 8) ∧
    u.mem.read (ej + 1) = some ((t.readReg (sourceReg j)).extractLsb 7 0) ∧
    (ei ≠ ej → ei ≠ ej + 1 → u.mem.read ei = some ((s.readReg (sourceReg i)).extractLsb 15 8)) ∧
    (ei + 1 ≠ ej → ei ≠ ej → u.mem.read (ei + 1) = some ((s.readReg (sourceReg i)).extractLsb 7 0))

/-- An update is seen by the very next instruction, whichever of the four it is and whichever field names the
register (70_reset_and_hazards.md R93). After a `sthu` or `sthux` that left the address `ea` in RA: as RA, the
next `sthu` and `sthux`, and with RA not 0 the next `sth` and `sthx`, store at `ea` plus their own offset; as RB,
the next `sthux` and `sthx` add `ea`; as RS, the next instruction stores the low half of `ea`. -/
def Obligations.UpdateIsSeenByTheNextInstruction : Prop :=
  ∀ (i : Instr) (ra rs : Reg) (d : BitVec 16) (s t : State), updatedReg i = some ra →
    exec i s = .next t →
    let ea := storeAddress i s
    let low := fun r : Reg => if r = ra then ea else (s.readReg r).setWidth 32
    storeAddress (.sthu rs d ra) t = ea + d.signExtend 32 ∧
    (ra ≠ 0 → storeAddress (.sth rs d ra) t = ea + d.signExtend 32) ∧
    (∀ rb, storeAddress (.sthux rs ra rb) t = ea + low rb) ∧
    (ra ≠ 0 → ∀ rb, storeAddress (.sthx rs ra rb) t = ea + low rb) ∧
    (∀ a, storeAddress (.sthux rs a ra) t = low a + ea) ∧
    (∀ a, storeAddress (.sthx rs a ra) t = (if a = 0 then 0 else low a) + ea) ∧
    (∀ j u, sourceReg j = ra → exec j t = .next u →
      u.mem.read (storeAddress j t).toNat = some (ea.extractLsb 15 8) ∧
      u.mem.read ((storeAddress j t).toNat + 1) = some (ea.extractLsb 7 0))

/-! ## Stops -/

/-- The checks of every instruction, in order, and what each answers: an invalid form, a register read that holds no
value, EA = 0xFFFFFFFF, a byte in the program text, an access not admitted, pc + 4 reaching 2^PCW; it completes
where all pass. The order and the stops are the spec's decisions D3, D6, D7, D8, D13, D15 and D19
(40_store_halfword.md R74; logs 1, 6, 10, 12, 13, 14, 23). -/
def Obligations.ChecksAnswerInOrder : Prop :=
  ∀ (i : Instr) (s : State),
    let ea := storeAddress i s
    (¬ FormAllowed i s → exec i s = .refused .invalidForm) ∧
    (FormAllowed i s → ¬ RegistersHeld i s → exec i s = .fault .unwrittenRegister) ∧
    (FormAllowed i s → RegistersHeld i s → ea = 0xFFFFFFFF → exec i s = .fault .addressWrap) ∧
    (FormAllowed i s → RegistersHeld i s → ea ≠ 0xFFFFFFFF →
      inText s.launch ea.toNat = true ∨ inText s.launch (ea.toNat + 1) = true →
      exec i s = .refused .storeIntoProgramText) ∧
    (FormAllowed i s → RegistersHeld i s → ea ≠ 0xFFFFFFFF → inText s.launch ea.toNat = false →
      inText s.launch (ea.toNat + 1) = false → admits s.launch ea.toNat 2 = false →
      exec i s = .fault .storageNotAdmitted) ∧
    (FormAllowed i s → RegistersHeld i s → ea ≠ 0xFFFFFFFF → admits s.launch ea.toNat 2 = true →
      2 ^ s.launch.pcw ≤ s.pc + 4 → exec i s = .fault .addressWrap) ∧
    (PassesChecks i s → ∃ t, exec i s = .next t)

/-- An instruction of an allowed form that reads a register which holds no value faults as UnwrittenRegister,
whatever else would stop it: RS in all four; RA in the update forms, and in `sth` and `sthx` where its field is
not 0; RB in `sthux` and `sthx` (10_state.md R15, R26; the spec's decision D13, log 1). -/
def Obligations.ReadOfARegisterWithoutAValueFaults : Prop :=
  (∀ (i : Instr) (s : State) (r : Reg), FormAllowed i s → r ∈ registersRead i →
    s.holdsValue r = false → exec i s = .fault .unwrittenRegister) ∧
  ∀ (rs ra rb r : Reg) (d : BitVec 16),
    (r ∈ registersRead (.sth rs d ra) ↔ r = rs ∨ ra ≠ 0 ∧ r = ra) ∧
    (r ∈ registersRead (.sthu rs d ra) ↔ r = rs ∨ r = ra) ∧
    (r ∈ registersRead (.sthux rs ra rb) ↔ r = rs ∨ r = ra ∨ r = rb) ∧
    (r ∈ registersRead (.sthx rs ra rb) ↔ r = rs ∨ r = rb ∨ ra ≠ 0 ∧ r = ra)

/-- Under the policy `refuse`, `sthu` and `sthux` with RA field 0 are refused as InvalidForm, whatever their
other operands and whatever the state. The spec's decision D3 (30_encoding.md R57, log 10). -/
def Obligations.InvalidFormIsRefusedByDefault : Prop :=
  (State.reset).launch.invalidFormPolicy = .refuse ∧
  ∀ (rs rb : Reg) (d : BitVec 16) (s : State), s.launch.invalidFormPolicy = .refuse →
    exec (.sthu rs d 0) s = .refused .invalidForm ∧ exec (.sthux rs 0 rb) s = .refused .invalidForm

/-- Under the policy `snapshot`, `sthu` and `sthux` with RA field 0 act on r0 with no special case: the address is
`trunc_32(GPR[0] + sext_64(d))` or `trunc_32(GPR[0] + GPR[RB])`, the reservation step and the store are as usual,
GPR[0] becomes the address zero-extended and pc advances (40_store_halfword.md R71). In `StoreEffect` the
reservation step is by the spec's decisions D11 and D12 (log 17 DEDUCED, log 18 DESIGN CHOICE: the model's choice,
not these rules'); that the registers read hold values is asked by decision D13 (10_state.md R26, log 1). -/
def Obligations.SnapshotPolicyRunsInvalidFormsOnR0 : Prop :=
  ∀ (rs rb : Reg) (d : BitVec 16) (s : State), s.launch.invalidFormPolicy = .snapshot →
    (∀ ea : Addr, ea = (s.readReg 0 + d.signExtend 64).setWidth 32 →
      RegistersHeld (.sthu rs d 0) s → StoreAccepted ea s →
      ∃ t, exec (.sthu rs d 0) s = .next t ∧
        StoreEffect ea ((s.readReg rs).setWidth 16) s t ∧ t.readReg 0 = ea.setWidth 64 ∧
        ∀ r, r ≠ 0 → t.readReg r = s.readReg r) ∧
    (∀ ea : Addr, ea = (s.readReg 0 + s.readReg rb).setWidth 32 →
      RegistersHeld (.sthux rs 0 rb) s → StoreAccepted ea s →
      ∃ t, exec (.sthux rs 0 rb) s = .next t ∧
        StoreEffect ea ((s.readReg rs).setWidth 16) s t ∧ t.readReg 0 = ea.setWidth 64 ∧
        ∀ r, r ≠ 0 → t.readReg r = s.readReg r)

/-! ## Reservations -/

/-- The reservation step of every instruction that goes through: an absent or a disabled table is skipped; an
enabled one loses every reservation, of any owner, whose granule contains EA, and, in one of the two ways
the spec admits, those on the granule of EA + 1; every other reservation stays. The spec's decisions D11
and D12 (20_memory.md R42; logs 17, 18). -/
def Obligations.StoreEndsReservationsOnItsGranule : Prop :=
  ∀ (i : Instr) (s t : State), exec i s = .next t → ReservationEffect (storeAddress i s) s t

/-- A store that does not cross a granule has no free choice: of an enabled table exactly the reservations off
EA's granule stay (20_memory.md R42, 95_test_vectors.md V43, V46; decision D11, log 17). -/
def Obligations.StoreInOneGranuleHasOneOutcome : Prop :=
  ∀ (i : Instr) (s t : State) (b : ReservationTable), exec i s = .next t →
    s.reservationTable = some b → b.enabled = true →
    granuleOf s.launch ((storeAddress i s).toNat + 1) = granuleOf s.launch (storeAddress i s).toNat →
    t.freeCount = s.freeCount ∧ ∃ b', t.reservationTable = some b' ∧ b'.enabled = true ∧
      ∀ r, r ∈ b'.active ↔ r ∈ b.active ∧ r.granule ≠ granuleOf s.launch (storeAddress i s).toNat

/-- Over a run of any length no reservation is created (20_memory.md R42). -/
def Obligations.RunsCreateNoReservation : Prop :=
  ∀ (k : Nat) (s t : State), Host.Core.run core k s = .next t →
    (reservations t).Sublist (reservations s)

/-! ## Invariants and runs -/

/-- The machine's invariant holds at reset (the reset values are the model's choice: logs 2, 3, 15). -/
def Obligations.ResetMeetsTheMachineInvariant : Prop := MachineInv State.reset

/-- Every step keeps the machine's invariant: memory in canonical form, pc a multiple of 4 below 2^PCW, Res a
set (10_state.md R17, R22, 20_memory.md R28, R30). -/
def Obligations.StepKeepsTheMachineInvariant : Prop :=
  ∀ s t : State, MachineInv s → step s = .next t → MachineInv t

/-- Over a run of any length, from any state, the launch parameters and every byte of the program text stay as
they are: the text is fixed for a run. The spec's decision D15 (20_memory.md R44, 10_state.md R24, log 14). -/
def Obligations.ProgramTextIsFixedForTheRun : Prop :=
  ∀ (k : Nat) (s t : State), Host.Core.run core k s = .next t →
    t.launch = s.launch ∧ ∀ a, inText s.launch a = true → t.mem.read a = s.mem.read a

/-- A run of k steps leaves pc advanced by 4k: control transfer is sequential (40_store_halfword.md R75,
10_state.md R17). -/
def Obligations.RunOfKStepsAdvancesPcByFourK : Prop :=
  ∀ (k : Nat) (s t : State), Host.Core.run core k s = .next t → t.pc = s.pc + 4 * k

/-- A straight-line run stays on its text up to EndPc: every step keeps `OnText`; from such a state no step is
refused for a misaligned pc, and short of EndPc there is always a word to fetch, so no step is refused for want of
one (70_reset_and_hazards.md R90, R91; logs 3, 8, and log 27 for the alignment of the text). -/
def Obligations.StraightLineRunStaysOnItsText : Prop :=
  ∀ s : State, OnText s →
    (∀ t, step s = .next t → OnText t) ∧ step s ≠ .refused .misalignedFetch ∧
    (¬ Final s → ∃ w, Fetches s w)

/-- A run to the end of a straight-line program stops exactly where the run is over: a final state stays as it is,
with no step made; every other outcome of `runToEnd` that is a state is one a plain run reaches within its bound;
and from a state on its text, with bound enough to reach EndPc, the state it stops in is final
(70_reset_and_hazards.md R91, the spec's decision D18). -/
def Obligations.RunToEndIsFinalAtEndPc : Prop :=
  (∀ (k : Nat) (s : State), Final s → runToEnd k s = .next s) ∧
  (∀ (k : Nat) (s t : State), runToEnd k s = .next t →
    ∃ j, j ≤ k ∧ Host.Core.run core j s = .next t) ∧
  ∀ (k : Nat) (s t : State), OnText s → s.launch.endPc ≤ s.pc + 4 * k →
    runToEnd k s = .next t → Final t

/-- Which registers hold a value: a write gives the register written one and leaves the others as they were; a step
changes no register's holding one, so where all hold values no step faults as UnwrittenRegister. At reset all hold
one, which is the model's choice (log 1; the fault is 10_state.md R26, decision D13). -/
def Obligations.RegistersThatHoldValuesKeepThem : Prop :=
  (∀ r, State.reset.holdsValue r = true) ∧
  (∀ (s : State) (r q : Reg) (x : Dword),
    (s.writeReg r x).holdsValue q = if q = r then true else s.holdsValue q) ∧
  (∀ s t : State, step s = .next t → ∀ r, t.holdsValue r = s.holdsValue r) ∧
  ∀ s : State, (∀ r, s.holdsValue r = true) → step s ≠ .fault .unwrittenRegister

/-- The state after reset, every value the model's choice but for the defaults PCW = 32 and InvalidFormPolicy =
refuse (10_state.md section 9; logs 1, 2, 3, 5, 13, 15, 20): registers 0, each holding a value, pc 0x00010000,
memory with nothing listed, an enabled reservation table with no reservation, every half-word access below
0xFFFFFFFF admitted. -/
def Obligations.ResetStateIsAsLogged : Prop :=
  (∀ r, State.reset.readReg r = 0 ∧ State.reset.holdsValue r = true) ∧ State.reset.pc = 0x00010000 ∧
  (∀ a, State.reset.mem.read a = none) ∧ State.reset.reservationTable = some ⟨true, []⟩ ∧
  statusBits State.reset = ⟨false, false, false⟩ ∧ State.reset.launch.pcw = 32 ∧
  (∀ ea : Addr, ea ≠ 0xFFFFFFFF → StoreAccepted ea State.reset) ∧ Final State.reset
end

