-- ==== Sys2Proof/Laws/Decode.lean ====
section
/-! SUPPORT. What the decoder can answer, said once, and the masks of the opcode map as fields. -/
namespace Sys2Proof

/-- `AND` with a mask, bit by bit. -/
theorem bit_of_and_eq {w m p : Word} (h : w &&& m = p) (i : Nat) :
    (w.getLsbD i && m.getLsbD i) = p.getLsbD i := by
  rw [← h]; simp

/-- Two words agree under a mask as soon as they agree at every bit of the mask. -/
theorem and_eq_of_bits {w m p : Word}
    (h : ∀ i, i < 32 → (w.getLsbD i && m.getLsbD i) = p.getLsbD i) : w &&& m = p := by
  apply BitVec.eq_of_getLsbD_eq
  intro i hi
  simpa using h i hi

/-- A bit of the word four bytes make up. -/
theorem getLsbD_wordOfBytes (b0 b1 b2 b3 : Byte) (i : Nat) :
    (wordOfBytes b0 b1 b2 b3).getLsbD i =
      if i < 8 then b3.getLsbD i else if i < 16 then b2.getLsbD (i - 8)
      else if i < 24 then b1.getLsbD (i - 16) else b0.getLsbD (i - 24) := by
  have h : (wordOfBytes b0 b1 b2 b3).getLsbD i =
    ((b0 ++ b1 ++ b2 ++ b3 : BitVec (8 + 8 + 8 + 8))).getLsbD i := rfl
  rw [h, BitVec.getLsbD_append, BitVec.getLsbD_append, BitVec.getLsbD_append, Nat.sub_sub, Nat.sub_sub]
  by_cases h1 : i < 8
  · simp [h1]
  · by_cases h2 : i < 16
    · simp [h1, h2, show i - 8 < 8 by omega]
    · by_cases h3 : i < 24
      · simp [h1, h2, h3, show ¬ i - 8 < 8 by omega, show i - 16 < 8 by omega]
      · simp [h1, h2, h3, show ¬ i - 8 < 8 by omega, show ¬ i - 16 < 8 by omega]

/-- The four bytes a word is stored as make up that word. -/
theorem wordOfBytes_byteOfWord (w : Word) :
    wordOfBytes (byteOfWord w 0) (byteOfWord w 1) (byteOfWord w 2) (byteOfWord w 3) = w := by
  apply BitVec.eq_of_getLsbD_eq
  intro i hi
  rw [getLsbD_wordOfBytes]
  interval_cases i <;> simp [byteOfWord]

/-- The mask of the D rows tests OPCD. -/
theorem and_maskD_iff (w p : Word) (hp : p &&& 0x03FFFFFF#32 = 0#32) :
    w &&& 0xFC000000#32 = p ↔ w.extractLsb 31 26 = p.extractLsb 31 26 := by
  constructor
  · rintro rfl
    apply BitVec.eq_of_getLsbD_eq
    intro i hi
    interval_cases i <;> simp [BitVec.extractLsb]
  · intro h
    apply and_eq_of_bits
    intro i hi
    have hb := bit_of_and_eq hp i
    have hw := congrArg (fun v => v.getLsbD (i - 26)) h
    interval_cases i <;> simp [BitVec.extractLsb] at hb hw ⊢ <;> simp_all

/-- The mask of the X rows tests OPCD, XO and Rc. -/
theorem and_maskX_iff (w p : Word) (hp : p &&& 0x03FFF800#32 = 0#32) :
    w &&& 0xFC0007FF#32 = p ↔ w.extractLsb 31 26 = p.extractLsb 31 26 ∧
      w.extractLsb 10 1 = p.extractLsb 10 1 ∧ w.extractLsb 0 0 = p.extractLsb 0 0 := by
  constructor
  · rintro rfl
    refine ⟨?_, ?_, ?_⟩ <;>
      (apply BitVec.eq_of_getLsbD_eq; intro i hi; interval_cases i <;> simp [BitVec.extractLsb])
  · rintro ⟨h1, h2, h3⟩
    apply and_eq_of_bits
    intro i hi
    have hb := bit_of_and_eq hp i
    have hw1 := congrArg (fun v => v.getLsbD (i - 26)) h1
    have hw2 := congrArg (fun v => v.getLsbD (i - 1)) h2
    have hw3 := congrArg (fun v => v.getLsbD i) h3
    interval_cases i <;> simp [BitVec.extractLsb] at hb hw1 hw2 hw3 ⊢ <;> simp_all

/-- The six answers of the decoder, and when it gives each. -/
theorem decode_cases (w : Word) :
    (w &&& 0xFC000000#32 = 0xB0000000#32 ∧
      decode w = .ok (.sth (fieldRS w) (fieldD w) (fieldRA w))) ∨
    (w &&& 0xFC000000#32 = 0xB4000000#32 ∧
      decode w = .ok (.sthu (fieldRS w) (fieldD w) (fieldRA w))) ∨
    (w &&& 0xFC0007FF#32 = 0x7C00036E#32 ∧
      decode w = .ok (.sthux (fieldRS w) (fieldRA w) (fieldRB w))) ∨
    (w &&& 0xFC0007FF#32 = 0x7C00032E#32 ∧
      decode w = .ok (.sthx (fieldRS w) (fieldRA w) (fieldRB w))) ∨
    ((w &&& 0xFC0007FF#32 = 0x7C00036F#32 ∨ w &&& 0xFC0007FF#32 = 0x7C00032F#32) ∧
      decode w = .error .reservedBitSet) ∨
    (w &&& 0xFC000000#32 ≠ 0xB0000000#32 ∧ w &&& 0xFC000000#32 ≠ 0xB4000000#32 ∧
      w &&& 0xFC0007FF#32 ≠ 0x7C00036E#32 ∧ w &&& 0xFC0007FF#32 ≠ 0x7C00032E#32 ∧
      w &&& 0xFC0007FF#32 ≠ 0x7C00036F#32 ∧ w &&& 0xFC0007FF#32 ≠ 0x7C00032F#32 ∧
      decode w = .error .notInScope) := by
  unfold decode
  split
  · rename_i h
    exact .inl ⟨by simpa [instanceOf, rowSth] using h, rfl⟩
  split
  · rename_i h
    exact .inr (.inl ⟨by simpa [instanceOf, rowSthu] using h, rfl⟩)
  split
  · rename_i h
    exact .inr (.inr (.inl ⟨by simpa [instanceOf, rowSthux] using h, rfl⟩))
  split
  · rename_i h
    exact .inr (.inr (.inr (.inl ⟨by simpa [instanceOf, rowSthx] using h, rfl⟩)))
  split
  · rename_i h
    exact .inr (.inr (.inr (.inr (.inl ⟨by
      simpa [reservedBitOf, rowSthux, rowSthx] using h, rfl⟩))))
  · simp_all [instanceOf, reservedBitOf, rowSth, rowSthu, rowSthux, rowSthx]

end Sys2Proof
end

