-- ==== Sys2Proof/Laws/Memory.lean ====
section
/-! SUPPORT. The basic laws of memory: read after write, and the canonical form kept by every operation. -/
namespace Sys2Proof.Machine

@[simp] theorem read_nil (a : Nat) : Memory.read [] a = none := rfl

@[simp] theorem read_cons (b : Nat) (u : Byte) (m : Memory) (a : Nat) :
    Memory.read ((b, u) :: m) a = if a = b then some u else Memory.read m a := rfl

/-- A read after a write: the value written at its address, and what was there before elsewhere. -/
theorem read_write (m : Memory) (a : Nat) (v : Byte) (x : Nat) :
    (m.write a v).read x = if x = a then some v else m.read x := by
  induction m with
  | nil => rfl
  | cons c m ih =>
    obtain ⟨b, u⟩ := c
    by_cases hxb : x = b
    · subst hxb
      simp only [Memory.write]
      split
      · simp
      · split
        · simp_all
        · have : x ≠ a := by omega
          simp [this]
    · simp only [Memory.write]
      split
      · simp [hxb]
      · split
        · subst_vars; simp [hxb]
        · simp [hxb, ih]

@[simp] theorem read_write_same (m : Memory) (a : Nat) (v : Byte) : (m.write a v).read a = some v := by
  simp [read_write]

theorem read_write_other (m : Memory) {a x : Nat} (v : Byte) (h : x ≠ a) :
    (m.write a v).read x = m.read x := by
  simp [read_write, h]

/-- The addresses of a memory after a write. -/
theorem mem_write_addr {m : Memory} {a : Nat} {v : Byte} {c : Host.Cell} (h : c ∈ m.write a v) :
    c.1 = a ∨ c ∈ m := by
  induction m with
  | nil => simp_all [Memory.write]
  | cons d m ih =>
    obtain ⟨b, u⟩ := d
    simp only [Memory.write] at h
    split at h
    · simp at h; rcases h with h | h | h <;> simp_all
    · split at h
      · simp at h; rcases h with h | h <;> simp_all
      · simp at h; rcases h with h | h
        · simp_all
        · rcases ih h with h | h <;> simp_all

/-- A write at an existing address keeps the canonical form. -/
theorem write_wf {m : Memory} {a : Nat} (v : Byte) (ha : a < addressCount) (h : m.wf) :
    (m.write a v).wf := by
  refine ⟨?_, fun c hc => ?_⟩
  · have hs := h.1
    clear h ha
    induction m with
    | nil => simp [Memory.write]
    | cons c m ih =>
      obtain ⟨b, u⟩ := c
      obtain ⟨hb, hm⟩ := List.pairwise_cons.1 hs
      simp only [Memory.write]
      split
      · refine List.pairwise_cons.2 ⟨fun d hd => ?_, hs⟩
        rcases List.mem_cons.1 hd with rfl | hd
        · assumption
        · exact Nat.lt_trans ‹a < b› (hb d hd)
      · split
        · subst_vars; exact List.pairwise_cons.2 ⟨hb, hm⟩
        · refine List.pairwise_cons.2 ⟨fun d hd => ?_, ih hm⟩
          rcases mem_write_addr hd with hd | hd
          · simp only [hd]; omega
          · exact hb d hd
  · rcases mem_write_addr hc with hc | hc
    · rw [hc]; exact ha
    · exact h.2 c hc

/-- `MemWrite` at existing addresses keeps the canonical form. -/
theorem memWrite_wf {m : Memory} {a n : Nat} (v : BitVec (8 * n)) (ha : a + n ≤ addressCount)
    (h : m.wf) : (m.memWrite a n v).wf := by
  have : ∀ j, j ≤ n → (m.writeFirst a n v j).wf := by
    intro j
    induction j with
    | zero => intro _; exact h
    | succ j ih => intro hj; exact write_wf _ (by omega) (ih (by omega))
  exact this n (Nat.le_refl n)

/-- Loading words at existing addresses keeps the canonical form. -/
theorem writeWords_wf {m : Memory} {a : Nat} {ws : List Word} (ha : a + 4 * ws.length ≤ addressCount)
    (h : m.wf) : (writeWords m a ws).wf := by
  induction ws generalizing m a with
  | nil => exact h
  | cons w ws ih =>
    simp only [List.length_cons] at ha
    exact ih (by omega) (memWrite_wf _ (by omega) h)

/-- A two-byte `MemWrite` as its two byte writes. -/
theorem memWrite_two (m : Memory) (a : Nat) (v : Half) :
    m.memWrite a 2 v = (m.write a (v.extractLsb 15 8)).write (a + 1) (v.extractLsb 7 0) := rfl

/-- A four-byte `MemWrite` as its four byte writes. -/
theorem memWrite_four (m : Memory) (a : Nat) (v : Word) :
    m.memWrite a 4 v = (((m.write a (v.extractLsb 31 24)).write (a + 1) (v.extractLsb 23 16)).write
      (a + 2) (v.extractLsb 15 8)).write (a + 3) (v.extractLsb 7 0) := rfl

end Sys2Proof.Machine
end

