-- ==== Sys2Proof/Laws/State.lean ====
section
/-! SUPPORT. One lemma for each field under each update of State, so that no proof unfolds a record update. -/
namespace Sys2Proof.Machine

section
variable (s : State) (r : Reg) (x : Dword) (ea : Addr) (v : Half) (base : Nat) (ws : List Word)

@[simp] theorem writeReg_pc : (s.writeReg r x).pc = s.pc := rfl
@[simp] theorem writeReg_mem : (s.writeReg r x).mem = s.mem := rfl
@[simp] theorem writeReg_reservationTable :
    (s.writeReg r x).reservationTable = s.reservationTable := rfl
@[simp] theorem writeReg_xer : (s.writeReg r x).xer = s.xer := rfl
@[simp] theorem writeReg_freeCount : (s.writeReg r x).freeCount = s.freeCount := rfl
@[simp] theorem writeReg_launch : (s.writeReg r x).launch = s.launch := rfl

@[simp] theorem reservationStep_gpr : (reservationStep ea s).gpr = s.gpr := rfl
@[simp] theorem reservationStep_gprHeld : (reservationStep ea s).gprHeld = s.gprHeld := rfl
@[simp] theorem reservationStep_pc : (reservationStep ea s).pc = s.pc := rfl
@[simp] theorem reservationStep_mem : (reservationStep ea s).mem = s.mem := rfl
@[simp] theorem reservationStep_reservationTable :
    (reservationStep ea s).reservationTable = reservationsAfter ea s := rfl
@[simp] theorem reservationStep_xer : (reservationStep ea s).xer = s.xer := rfl
@[simp] theorem reservationStep_freeCount :
    (reservationStep ea s).freeCount = freeCountAfter ea s := rfl
@[simp] theorem reservationStep_launch : (reservationStep ea s).launch = s.launch := rfl

@[simp] theorem storeHalfword_gpr : (storeHalfword ea v s).gpr = s.gpr := rfl
@[simp] theorem storeHalfword_gprHeld : (storeHalfword ea v s).gprHeld = s.gprHeld := rfl
@[simp] theorem storeHalfword_pc : (storeHalfword ea v s).pc = s.pc := rfl
@[simp] theorem storeHalfword_mem :
    (storeHalfword ea v s).mem = s.mem.memWrite ea.toNat 2 v := rfl
@[simp] theorem storeHalfword_reservationTable :
    (storeHalfword ea v s).reservationTable = reservationsAfter ea s := rfl
@[simp] theorem storeHalfword_xer : (storeHalfword ea v s).xer = s.xer := rfl
@[simp] theorem storeHalfword_freeCount :
    (storeHalfword ea v s).freeCount = freeCountAfter ea s := rfl
@[simp] theorem storeHalfword_launch : (storeHalfword ea v s).launch = s.launch := rfl
@[simp] theorem storeHalfword_readReg : (storeHalfword ea v s).readReg r = s.readReg r := rfl
@[simp] theorem storeHalfword_holdsValue :
    (storeHalfword ea v s).holdsValue r = s.holdsValue r := rfl

@[simp] theorem writeBack_pc : (writeBack r ea s).pc = s.pc := rfl
@[simp] theorem writeBack_mem : (writeBack r ea s).mem = s.mem := rfl
@[simp] theorem writeBack_reservationTable :
    (writeBack r ea s).reservationTable = s.reservationTable := rfl
@[simp] theorem writeBack_xer : (writeBack r ea s).xer = s.xer := rfl
@[simp] theorem writeBack_freeCount : (writeBack r ea s).freeCount = s.freeCount := rfl
@[simp] theorem writeBack_launch : (writeBack r ea s).launch = s.launch := rfl

@[simp] theorem advancePc_gpr : (advancePc s).gpr = s.gpr := rfl
@[simp] theorem advancePc_gprHeld : (advancePc s).gprHeld = s.gprHeld := rfl
@[simp] theorem advancePc_pc : (advancePc s).pc = s.pc + 4 := rfl
@[simp] theorem advancePc_mem : (advancePc s).mem = s.mem := rfl
@[simp] theorem advancePc_reservationTable :
    (advancePc s).reservationTable = s.reservationTable := rfl
@[simp] theorem advancePc_xer : (advancePc s).xer = s.xer := rfl
@[simp] theorem advancePc_freeCount : (advancePc s).freeCount = s.freeCount := rfl
@[simp] theorem advancePc_launch : (advancePc s).launch = s.launch := rfl
@[simp] theorem advancePc_readReg : (advancePc s).readReg r = s.readReg r := rfl
@[simp] theorem advancePc_holdsValue : (advancePc s).holdsValue r = s.holdsValue r := rfl

@[simp] theorem loadProgram_gpr : (loadProgram base ws s).gpr = s.gpr := rfl
@[simp] theorem loadProgram_gprHeld : (loadProgram base ws s).gprHeld = s.gprHeld := rfl
@[simp] theorem loadProgram_pc : (loadProgram base ws s).pc = base := rfl
@[simp] theorem loadProgram_mem : (loadProgram base ws s).mem = writeWords s.mem base ws := rfl
@[simp] theorem loadProgram_reservationTable :
    (loadProgram base ws s).reservationTable = s.reservationTable := rfl
@[simp] theorem loadProgram_xer : (loadProgram base ws s).xer = s.xer := rfl
@[simp] theorem loadProgram_freeCount : (loadProgram base ws s).freeCount = s.freeCount := rfl
@[simp] theorem loadProgram_launch : (loadProgram base ws s).launch =
    { s.launch with textBase := base, textWords := ws.length, endPc := base + 4 * ws.length } := rfl

end

end Sys2Proof.Machine
end

