-- ==== Sys2Proof/Laws/Ops.lean ====
section
/-! SUPPORT. What each shared operation can do, said once, and what an instruction and a step can do. -/
namespace Sys2Proof.Machine

/-- A register after a register write. -/
theorem readReg_writeReg (s : State) (r q : Reg) (x : Dword) :
    (s.writeReg r x).readReg q = if q = r then x else s.readReg q := by
  simp only [State.readReg, State.writeReg, Fin.getElem_fin, Vector.getElem_set, eq_comm, Fin.ext_iff]

/-- Which registers hold a value after a register write. -/
theorem holdsValue_writeReg (s : State) (r q : Reg) (x : Dword) :
    (s.writeReg r x).holdsValue q = if q = r then true else s.holdsValue q := by
  simp only [State.holdsValue, State.writeReg, Fin.getElem_fin, Vector.getElem_set, eq_comm, Fin.ext_iff]

/-- Which registers hold a value after a write-back. -/
theorem holdsValue_writeBack (s : State) (r q : Reg) (ea : Addr) :
    (writeBack r ea s).holdsValue q = if q = r then true else s.holdsValue q :=
  holdsValue_writeReg s r q _

/-- A register after a write-back. -/
theorem readReg_writeBack (s : State) (r q : Reg) (ea : Addr) :
    (writeBack r ea s).readReg q = if q = r then ea.setWidth 64 else s.readReg q :=
  readReg_writeReg s r q _

theorem inText_eq_true {l : Launch} {a : Nat} :
    inText l a = true ↔ l.textBase ≤ a ∧ a < textStop l := by
  simp [inText]

/-- A half word touches the text where its first or its second byte lies in it. -/
theorem touchesText_two (l : Launch) (a : Nat) :
    touchesText l a 2 = (inText l a || inText l (a + 1)) := by
  simp [touchesText]

/-- An access that does not touch the text has no byte in it. -/
theorem inText_of_not_touchesText {l : Launch} {a n k : Nat} (h : touchesText l a n = false)
    (hk : k < n) : inText l (a + k) = false := by
  induction n with
  | zero => omega
  | succ n ih =>
    simp only [touchesText, Bool.or_eq_false_iff] at h
    rcases Nat.lt_succ_iff_lt_or_eq.1 hk with hk | rfl
    · exact ih h.1 hk
    · exact h.2

/-- The checks of a store answer a next state exactly where the store is accepted. -/
theorem guardStore_eq_next {ea : Addr} {s t u : State} :
    guardStore ea s t = .next u ↔ StoreAccepted ea s ∧ t = u := by
  unfold guardStore StoreAccepted
  split
  · simp_all
  · split
    · simp_all
    · split
      · simp_all
      · split
        · simp_all
        · simp_all

/-- The check of the form answers a next state exactly where the form is allowed and the rest does. -/
theorem guardForm_eq_next {ra : Reg} {s u : State} {k : Result} :
    guardForm ra s k = .next u ↔
      (ra ≠ 0 ∨ s.launch.invalidFormPolicy = .snapshot) ∧ k = .next u := by
  unfold guardForm
  cases h : s.launch.invalidFormPolicy <;> by_cases h0 : ra = 0 <;> simp [h0]

/-- The check of the registers read answers a next state exactly where all hold values and the rest does. -/
theorem guardRegs_eq_next {rs : List Reg} {s u : State} {k : Result} :
    guardRegs rs s k = .next u ↔ (∀ r ∈ rs, s.holdsValue r = true) ∧ k = .next u := by
  unfold guardRegs
  split <;> simp_all

/-- The reservations left by `invalidateGranule`. -/
theorem mem_invalidateGranule {g : Nat} {b : ReservationTable} {r : Reservation} :
    r ∈ (invalidateGranule g b).active ↔ r ∈ b.active ∧ r.granule ≠ g := by
  simp [invalidateGranule]

@[simp] theorem invalidateGranule_enabled (g : Nat) (b : ReservationTable) :
    (invalidateGranule g b).enabled = b.enabled := rfl

theorem invalidateGranule_sublist (g : Nat) (b : ReservationTable) :
    (invalidateGranule g b).active.Sublist b.active := List.filter_sublist

@[simp] theorem invalidateForWrite_enabled (l : Launch) (second : Bool) (ea : Addr)
    (b : ReservationTable) : (invalidateForWrite l second ea b).enabled = b.enabled := by
  cases second <;> rfl

theorem invalidateForWrite_sublist (l : Launch) (second : Bool) (ea : Addr) (b : ReservationTable) :
    (invalidateForWrite l second ea b).active.Sublist b.active := by
  cases second
  · exact invalidateGranule_sublist _ _
  · exact (invalidateGranule_sublist _ _).trans (invalidateGranule_sublist _ _)

/-- The reservations left by `invalidate_for_write`. -/
theorem mem_invalidateForWrite {l : Launch} {second : Bool} {ea : Addr} {b : ReservationTable}
    {r : Reservation} : r ∈ (invalidateForWrite l second ea b).active ↔
      r ∈ b.active ∧ r.granule ≠ granuleOf l ea.toNat ∧
        ¬ (second = true ∧ r.granule = granuleOf l (ea.toNat + 1)) := by
  cases second <;> simp [invalidateForWrite, mem_invalidateGranule, and_assoc]

/-- The reservation step on an absent table. -/
theorem reservationsAfter_none {ea : Addr} {s : State} (h : s.reservationTable = none) :
    reservationsAfter ea s = none := by simp [reservationsAfter, h]

/-- The reservation step on a table that is present. -/
theorem reservationsAfter_some {ea : Addr} {s : State} {b : ReservationTable}
    (h : s.reservationTable = some b) : reservationsAfter ea s =
      some (if tableActs b then invalidateForWrite s.launch (removesSecond ea s) ea b else b) := by
  simp [reservationsAfter, h]

/-- The state an instruction leaves where it goes through (the actions of 20_memory.md R43 in order). -/
def storeState (i : Instr) (s : State) : State :=
  let ea := storeAddress i s
  let stored := storeHalfword ea (halfwordOf (sourceReg i) s) s
  match updatedReg i with
  | none => advancePc stored
  | some ra => advancePc (writeBack ra ea stored)

/-- Everything an instruction can do when it answers a next state, and when it does. -/
theorem exec_eq_next {i : Instr} {s t : State} :
    exec i s = .next t ↔ PassesChecks i s ∧ storeState i s = t := by
  cases i <;>
    simp [exec, execSth, execSthu, execSthux, execSthx, guardStore_eq_next, guardForm_eq_next,
      guardRegs_eq_next, storeState, storeAddress, sourceReg, updatedReg, PassesChecks, FormAllowed,
      RegistersHeld, registersRead, Instr.wellFormed, and_assoc]

section
variable (i : Instr) (s : State)

@[simp] theorem storeState_pc : (storeState i s).pc = s.pc + 4 := by cases i <;> rfl
@[simp] theorem storeState_mem : (storeState i s).mem =
    s.mem.memWrite (storeAddress i s).toNat 2 (halfwordOf (sourceReg i) s) := by cases i <;> rfl
@[simp] theorem storeState_reservationTable :
    (storeState i s).reservationTable = reservationsAfter (storeAddress i s) s := by cases i <;> rfl
@[simp] theorem storeState_xer : (storeState i s).xer = s.xer := by cases i <;> rfl
@[simp] theorem storeState_freeCount :
    (storeState i s).freeCount = freeCountAfter (storeAddress i s) s := by cases i <;> rfl
@[simp] theorem storeState_launch : (storeState i s).launch = s.launch := by cases i <;> rfl

/-- A register after an instruction that goes through. -/
theorem storeState_readReg (q : Reg) : (storeState i s).readReg q =
    if updatedReg i = some q then (storeAddress i s).setWidth 64 else s.readReg q := by
  cases i <;>
    simp [storeState, updatedReg, storeAddress, readReg_writeBack, eq_comm]

/-- No instruction that goes through gives or takes a register its value: the one it writes it has read. -/
theorem storeState_holdsValue {i : Instr} {s : State} (h : RegistersHeld i s) (q : Reg) :
    (storeState i s).holdsValue q = s.holdsValue q := by
  cases i with
  | sth rs d ra => rfl
  | sthx rs ra rb => rfl
  | sthu rs d ra =>
    have hr : s.holdsValue ra = true := h ra (by simp [registersRead])
    by_cases hq : q = ra <;> simp [storeState, updatedReg, holdsValue_writeBack, hq, hr]
  | sthux rs ra rb =>
    have hr : s.holdsValue ra = true := h ra (by simp [registersRead])
    by_cases hq : q = ra <;> simp [storeState, updatedReg, holdsValue_writeBack, hq, hr]

end

/-- Everything a step can do when it answers a next state: it fetched a word that decodes, and ran it. -/
theorem step_eq_next {s t : State} :
    step s = .next t ↔ ∃ w i, Fetches s w ∧ decode w = .ok i ∧ exec i s = .next t := by
  unfold step fetchAndRun Fetches Final
  split
  · simp_all
  · split
    · simp_all
    · split
      · simp_all
      · rename_i h1 h2 h3
        cases hw : fetchWord s with
        | none => simp
        | some w => cases hd : decode w <;> simp_all

end Sys2Proof.Machine
end

