-- ==== Sys2Proof/Laws/PerInstr.lean ====
section
/-! SUPPORT. Facts about every instruction as syntax, one lemma for each constructor. -/
namespace Sys2Proof.Laws

/-- The row of the opcode map an instruction belongs to (30_encoding.md R55). -/
def rowOf : Instr → Row
  | .sth _ _ _ => rowSth
  | .sthu _ _ _ => rowSthu
  | .sthux _ _ _ => rowSthux
  | .sthx _ _ _ => rowSthx

/-- The word of an instruction is an instance of its row of the opcode map (30_encoding.md R55). -/
def EncodedInItsRow.Statement (i : Instr) : Prop := instanceOf (encode i) (rowOf i) = true

theorem regBits_of_place : ∀ r : Reg,
    placeReg r 21 &&& 0xFC0007FF#32 = 0#32 ∧ placeReg r 16 &&& 0xFC0007FF#32 = 0#32 ∧
      placeReg r 11 &&& 0xFC0007FF#32 = 0#32 ∧ placeReg r 21 &&& 0xFC000000#32 = 0#32 ∧
      placeReg r 16 &&& 0xFC000000#32 = 0#32 := by decide

theorem displacement_outside_opcode (d : BitVec 16) :
    d.setWidth 32 &&& 0xFC000000#32 = 0#32 := by
  ext i hi
  by_cases h : i < 16
  · interval_cases i <;> simp
  · simp [BitVec.getLsbD_of_ge d i (by omega)]

/-- `AND` with a mask, over a word put together from fields. -/
theorem or_and_mask (x y m : Word) : (x ||| y) &&& m = (x &&& m) ||| (y &&& m) := by
  ext i hi; simp; grind

theorem EncodedInItsRow.sth (rs : Reg) (d : BitVec 16) (ra : Reg) :
    EncodedInItsRow.Statement (.sth rs d ra) := by
  simp [Statement, instanceOf, rowOf, rowSth, encode, or_and_mask, regBits_of_place,
    displacement_outside_opcode]

theorem EncodedInItsRow.sthu (rs : Reg) (d : BitVec 16) (ra : Reg) :
    EncodedInItsRow.Statement (.sthu rs d ra) := by
  simp [Statement, instanceOf, rowOf, rowSthu, encode, or_and_mask, regBits_of_place,
    displacement_outside_opcode]

theorem EncodedInItsRow.sthux (rs ra rb : Reg) : EncodedInItsRow.Statement (.sthux rs ra rb) := by
  simp [Statement, instanceOf, rowOf, rowSthux, encode, or_and_mask, regBits_of_place]

theorem EncodedInItsRow.sthx (rs ra rb : Reg) : EncodedInItsRow.Statement (.sthx rs ra rb) := by
  simp [Statement, instanceOf, rowOf, rowSthx, encode, or_and_mask, regBits_of_place]

end Sys2Proof.Laws
end

