-- ==== Sys2Proof/Tests/Slice0.lean ====
section
/-! SUPPORT. Tests on expected results from spec/95_test_vectors.md (V<n>) and the encoding tables, and for each
statement with hypotheses a witness that meets them. -/
namespace Sys2Proof.Tests

open Sys2Proof.Machine

/-! ## Helpers -/

/-- `s` with register `r` holding no value. -/
def withoutValue (r : Reg) (s : State) : State := { s with gprHeld := s.gprHeld.set r false }

/-- The reset state with the given registers. -/
def withRegs (l : List (Reg × Dword)) : State := l.foldl (fun s p => s.writeReg p.1 p.2) State.reset

/-- `s` under the launch policy `snapshot`. -/
def snapshotPolicy (s : State) : State :=
  { s with launch := { s.launch with invalidFormPolicy := .snapshot } }

/-- `s` with a reservation table and granules of 2^`g` bytes. -/
def withTable (b : Option ReservationTable) (g : Nat) (s : State) : State :=
  { s with reservationTable := b, launch := { s.launch with resGranuleLog2 := g } }

/-- One step on the word, placed at pc. -/
def run (w : Word) (s : State) : Result := step (s.withFetchWord 32 w.toNat)

/-- The outcome is a next state with `p`. -/
def leaves (o : Result) (p : State → Bool) : Bool :=
  match o with
  | .next t => p t
  | _ => false

/-- The outcome is this fault. -/
def faults (o : Result) (r : Fault) : Bool :=
  match o with
  | .fault q => q == r
  | _ => false

/-- The outcome is this refusal. -/
def refuses (o : Result) (r : Refusal) : Bool :=
  match o with
  | .refused q => q == r
  | _ => false

/-- The two bytes at `a` are `h` and `l`. -/
def bytesAre (t : State) (a : Nat) (h l : Byte) : Bool :=
  t.mem.read a == some h && t.mem.read (a + 1) == some l

/-! ## Well-formedness: an ill-formed term for each check, refused by it (30_encoding.md R57) -/

theorem test_sthu_ra0_ill_formed : Instr.wellFormed (.sthu 3 4 0) = false := by decide
theorem test_sthux_ra0_ill_formed : Instr.wellFormed (.sthux 3 0 5) = false := by decide
theorem test_ra0_forms_well_formed :
    Instr.wellFormed (.sth 3 4 0) = true ∧ Instr.wellFormed (.sthx 3 0 0) = true := by decide

/-! ## Decoding: words written out field by field from 30_encoding.md R49, R50, R54 -/

/-- OPCD 44, RS 3, RA 4, d = -2 (V2). -/
theorem test_decode_sth :
    decode (0b101100#6 ++ 0b00011#5 ++ 0b00100#5 ++ 0b1111111111111110#16) = .ok (.sth 3 0xFFFE 4) := by
  decide

/-- OPCD 45, RS 3, RA 1, d = -32 (V16). -/
theorem test_decode_sthu :
    decode (0b101101#6 ++ 0b00011#5 ++ 0b00001#5 ++ 0b1111111111100000#16) = .ok (.sthu 3 0xFFE0 1) := by
  decide

/-- OPCD 31, RS 3, RA 4, RB 5, XO 439, Rc 0 (V20). -/
theorem test_decode_sthux :
    decode (0b011111#6 ++ 0b00011#5 ++ 0b00100#5 ++ 0b00101#5 ++ 0b0110110111#10 ++ 0b0#1)
      = .ok (.sthux 3 4 5) := by decide

/-- OPCD 31, RS 3, RA 0, RB 5, XO 407, Rc 0 (V17). -/
theorem test_decode_sthx :
    decode (0b011111#6 ++ 0b00011#5 ++ 0b00000#5 ++ 0b00101#5 ++ 0b0110010111#10 ++ 0b0#1)
      = .ok (.sthx 3 0 5) := by decide

/-- V28, V34: Rc = 1. -/
theorem test_decode_record_bit : decode 0x7C642B6F = .error .reservedBitSet ∧
    decode 0x7C642B2F = .error .reservedBitSet := by decide

/-- V40, V41, V42: words of no row. -/
theorem test_decode_not_in_scope : decode 0xA0640008 = .error .notInScope ∧
    decode 0x7C64292E = .error .notInScope ∧ decode 0 = .error .notInScope := by decide

/-- V35 to V39: the opcode words, and a word with every operand bit set, through the bytes of the table word. -/
theorem test_decode_table_words : decodeTableWord 32 0xB0000000 = some (.sth 0 0 0) ∧
    decodeTableWord 32 0xB4000000 = some (.sthu 0 0 0) ∧
    decodeTableWord 32 0x7C00036E = some (.sthux 0 0 0) ∧
    decodeTableWord 32 0x7C00032E = some (.sthx 0 0 0) ∧
    decodeTableWord 32 0xB7FFFFFF = some (.sthu 31 0xFFFF 31) := by decide

/-- V1, V13, V20, V29: the words of the spec's examples. -/
theorem test_encode : encode (.sth 3 8 4) = 0xB0640008 ∧ encode (.sthu 3 2 4) = 0xB4640002 ∧
    encode (.sthux 3 4 5) = 0x7C642B6E ∧ encode (.sthx 3 4 5) = 0x7C642B2E := by decide

/-! ## One step of each instruction -/

/-- V5: RA = 0 is literal zero, not r0; the most negative displacement is sign-extended. -/
theorem test_sth_literal_zero_base :
    leaves (run 0xB0A08000 (withRegs [(5, 0x102), (0, 0xDEADDEADDEADDEAD)]))
      (fun t => bytesAre t 0xFFFF8000 0x01 0x02 && t.pc == 0x10004) = true := by decide

/-- V7 with the value of V1: the carry out of bit 31 is dropped; low 16 bits, high byte first. -/
theorem test_sth_carry_dropped :
    leaves (run 0xB0640010 (withRegs [(3, 0x1122334455667788), (4, 0x1FFFFFFF8)]))
      (fun t => bytesAre t 8 0x77 0x88 && t.readReg 4 == 0x1FFFFFFF8) = true := by decide

/-- V15: RS = RA stores the old value; an odd address. -/
theorem test_sthu_source_is_base :
    leaves (run 0xB4840006 (withRegs [(4, 0x1000BEEF)]))
      (fun t => bytesAre t 0x1000BEF5 0xBE 0xEF && t.readReg 4 == 0x1000BEF5) = true := by decide

/-- V18: the write-back below zero is zero-extended. -/
theorem test_sthu_wraps_below_zero :
    leaves (run 0xB464FFFC (withRegs [(3, 0xABCD), (4, 2)]))
      (fun t => bytesAre t 0xFFFFFFFE 0xAB 0xCD && t.readReg 4 == 0xFFFFFFFE) = true := by decide

/-- V25: all three fields equal. -/
theorem test_sthux_all_fields_equal :
    leaves (run 0x7FFFFB6E (withRegs [(31, 0x08000004)]))
      (fun t => bytesAre t 0x10000008 0x00 0x04 && t.readReg 31 == 0x10000008) = true := by decide

/-- V26: RB = 0 is r0, which stays as it is. -/
theorem test_sthux_index_r0 :
    leaves (run 0x7C64036E (withRegs [(0, 0x10), (3, 0x909), (4, 0x10000000)]))
      (fun t => bytesAre t 0x10000010 0x09 0x09 && t.readReg 4 == 0x10000010 && t.readReg 0 == 0x10)
      = true := by decide

/-- V33: RA field 0 is literal zero and RB field 0 is r0, in one word. -/
theorem test_sthx_zero_base_r0_index :
    leaves (run 0x7C60032E (withRegs [(0, 0x50000000), (3, 0x708)]))
      (fun t => bytesAre t 0x50000000 0x07 0x08) = true := by decide

/-- V30: a negative index by wrap-around; no register changes. -/
theorem test_sthx_negative_index :
    leaves (run 0x7C642B2E (withRegs [(3, 0x1234), (4, 0x10000010), (5, 0xFFFFFFFFFFFFFFF0)]))
      (fun t => bytesAre t 0x10000000 0x12 0x34 && t.readReg 4 == 0x10000010) = true := by decide

/-! ## Stops -/

/-- V11: EA = 0xFFFFFFFF. -/
theorem test_top_of_address_space : faults (run 0xB060FFFF State.reset) .addressWrap = true := by decide

/-- V12: r4 holds no value; a register that is not read may hold none. -/
theorem test_register_without_value :
    faults (run 0xB0640000 (withoutValue 4 (withRegs [(3, 1)]))) .unwrittenRegister = true ∧
    leaves (run 0xB0600000 (withoutValue 0 (withoutValue 4 (withRegs [(3, 1)]))))
      (fun t => bytesAre t 0 0 1) = true := by decide

/-- V19, V27: an invalid form under the default policy. -/
theorem test_invalid_form : refuses (run 0xB4600004 State.reset) .invalidForm = true ∧
    refuses (run 0x7C602B6E State.reset) .invalidForm = true := by decide

/-- V19s: the same word under the policy `snapshot`. -/
theorem test_invalid_form_snapshot :
    leaves (run 0xB4600004 (snapshotPolicy (withRegs [(0, 0x40000000), (3, 0x5555)])))
      (fun t => bytesAre t 0x40000004 0x55 0x55 && t.readReg 0 == 0x40000004) = true := by decide

/-- V28, V40: the decoder's rejections as refusals of the step. -/
theorem test_rejected_words : refuses (run 0x7C642B6F State.reset) .reservedBitSet = true ∧
    refuses (run 0xA0640008 State.reset) .notInScope = true := by decide

/-- 20_memory.md R44: the second byte of the store is the first of the text. -/
theorem test_store_into_text :
    refuses (run 0xB0640000 (withRegs [(4, 0xFFFF)])) .storeIntoProgramText = true := by decide

/-- 70_reset_and_hazards.md R91: at reset, with no program loaded, pc = EndPc. -/
theorem test_reset_run_is_over : refuses (step State.reset) .notInScope = true := by decide

/-! ## Reservations -/

/-- V43: the reservation on the granule of EA goes, whoever owns it; the other stays. -/
theorem test_reservation_on_granule_ends :
    leaves (run 0xB4640002 (withTable (some ⟨true, [⟨1, 0x10000000 / 4⟩, ⟨2, 0x20000000 / 4⟩]⟩) 2
        (withRegs [(3, 0xDEADBEEF), (4, 0x10000000)])))
      (fun t => t.reservationTable == some ⟨true, [⟨2, 0x20000000 / 4⟩]⟩) = true := by decide

/-- V44, V45: a disabled table and an absent one are skipped. -/
theorem test_disabled_or_absent_table :
    leaves (run 0xB4640002 (withTable (some ⟨false, [⟨1, 0x10000000 / 4⟩]⟩) 2
        (withRegs [(4, 0x10000000)])))
      (fun t => t.reservationTable == some ⟨false, [⟨1, 0x10000000 / 4⟩]⟩) = true ∧
    leaves (run 0xB4640002 (withTable none 2 (withRegs [(4, 0x10000000)])))
      (fun t => t.reservationTable == none) = true := by decide

/-- V47: a store across a granule boundary leaves the second granule's reservation or not, by the free choice. -/
theorem test_crossing_store_has_two_outcomes :
    reservationsAfter 0x10000007 (withTable (some ⟨true, [⟨1, 0x10000008 / 8⟩]⟩) 3 State.reset)
      = some ⟨true, if Config.secondGranuleRemoved 0 then [] else [⟨1, 0x10000008 / 8⟩]⟩ := by
  have h : removesSecond 0x10000007 (withTable (some ⟨true, [⟨1, 0x10000008 / 8⟩]⟩) 3 State.reset)
      = Config.secondGranuleRemoved 0 := Bool.true_and _
  rw [reservationsAfter_some (b := ⟨true, [⟨1, 0x10000008 / 8⟩]⟩) rfl, h]
  cases Config.secondGranuleRemoved 0 <;> decide

/-! ## Witnesses: a concrete state and operands for the hypotheses of each statement -/

/-- The state of V1, its word placed at pc. -/
def placed : State :=
  (withRegs [(3, 0x1122334455667788), (4, 0x10000000), (5, 0x100)]).withFetchWord 32 0xB0640008

/-- A next state of `placed`. -/
def stored : State := storeState (.sthu 3 2 4) placed

theorem accepted_iff (ea : Addr) (s : State) : StoreAccepted ea s ↔
    ea ≠ 0xFFFFFFFF ∧ touchesText s.launch ea.toNat 2 = false ∧ admits s.launch ea.toNat 2 = true ∧
      s.pc + 4 < 2 ^ s.launch.pcw := Iff.rfl

theorem passes_iff (i : Instr) (s : State) : PassesChecks i s ↔
    (i.wellFormed = true ∨ s.launch.invalidFormPolicy = .snapshot) ∧
    (∀ r ∈ registersRead i, s.holdsValue r = true) ∧ StoreAccepted (storeAddress i s) s := Iff.rfl

/-- An instruction whose checks pass, the checks written out so that they can be decided. -/
theorem exec_of_checks {i : Instr} {s : State}
    (h : (i.wellFormed = true ∨ s.launch.invalidFormPolicy = .snapshot) ∧
      (∀ r ∈ registersRead i, s.holdsValue r = true) ∧ storeAddress i s ≠ 0xFFFFFFFF ∧
      touchesText s.launch (storeAddress i s).toNat 2 = false ∧
      admits s.launch (storeAddress i s).toNat 2 = true ∧ s.pc + 4 < 2 ^ s.launch.pcw) :
    exec i s = .next (storeState i s) := exec_eq_next.2 ⟨h, rfl⟩

theorem witness_EncodeOfDecodeIsTheWord : decode 0xB0640008 = .ok (.sth 3 8 4) := by decide

theorem witness_OpcodeRowsMatchByMask :
    rowSth ∈ rows ∧ instanceOf 0xB3FFFFFF rowSth = true ∧ rowSthx ∈ rows ∧
      instanceOf 0x7FFFFB2E rowSthx = true := by decide

theorem witness_DecodedFieldsAreTheWordsBits :
    decode 0xB3FFFFFF = .ok (.sth 31 0xFFFF 31) ∧ decode 0xB7FFFFFF = .ok (.sthu 31 0xFFFF 31) ∧
    decode 0x7FFFFB6E = .ok (.sthux 31 31 31) ∧ decode 0x7FFFFB2E = .ok (.sthx 31 31 31) := by decide

theorem fetches_iff (s : State) (w : Word) : Fetches s w ↔ ¬ s.pc = s.launch.endPc ∧ s.pc % 4 = 0 ∧
    fetchInText s = true ∧ fetchWord s = some w := Iff.rfl

theorem witness_RecordBitSetIsRefused :
    Fetches (State.reset.withFetchWord 32 0x7FFFFB2F) 0x7FFFFB2F ∧
    (0x7FFFFB2F : Word).extractLsb 31 26 = 31 ∧ (0x7FFFFB2F : Word).extractLsb 10 1 = 407 ∧
    (0x7FFFFB2F : Word).extractLsb 0 0 = 1 ∧
    Fetches (State.reset.withFetchWord 32 0x7C00036F) 0x7C00036F ∧
    (0x7C00036F : Word).extractLsb 31 26 = 31 ∧ (0x7C00036F : Word).extractLsb 10 1 = 439 ∧
    (0x7C00036F : Word).extractLsb 0 0 = 1 := by
  simp only [fetches_iff]; decide

theorem witness_OtherWordsAreNotInScope :
    Fetches (State.reset.withFetchWord 32 0xAFFFFFFF) 0xAFFFFFFF ∧
    (0xAFFFFFFF : Word).extractLsb 31 26 ≠ 44 ∧ (0xAFFFFFFF : Word).extractLsb 31 26 ≠ 45 ∧
    ¬ ((0xAFFFFFFF : Word).extractLsb 31 26 = 31 ∧ ((0xAFFFFFFF : Word).extractLsb 10 1 = 439 ∨
      (0xAFFFFFFF : Word).extractLsb 10 1 = 407)) := by
  simp only [fetches_iff]; decide

theorem witness_FetchIsBigEndian : placed.mem.read placed.pc = some 0xB0 ∧
    placed.mem.read (placed.pc + 1) = some 0x64 ∧ placed.mem.read (placed.pc + 2) = some 0x00 ∧
    placed.mem.read (placed.pc + 3) = some 0x08 := by decide

theorem witness_StepRunsTheDecodedInstruction :
    Fetches placed 0xB0640008 ∧ decode 0xB0640008 = .ok (.sth 3 8 4) := by
  simp only [fetches_iff]; decide

theorem witness_StepWithoutAFetchStopsByName_over : Final State.reset := rfl

theorem witness_StepWithoutAFetchStopsByName_misaligned :
    ¬ Final { placed with pc := 0x10001 } ∧ { placed with pc := 0x10001 }.pc % 4 ≠ 0 := by
  unfold Final; decide

theorem witness_StepWithoutAFetchStopsByName_outside :
    ¬ Final { placed with pc := 0xFFFC } ∧ { placed with pc := 0xFFFC }.pc % 4 = 0 ∧
      fetchInText { placed with pc := 0xFFFC } = false := by
  unfold Final; decide

theorem witness_StepWithoutAFetchStopsByName_unwritten :
    ¬ Final { placed with mem := [] } ∧ { placed with mem := [] }.pc % 4 = 0 ∧
      fetchInText { placed with mem := [] } = true ∧ fetchWord { placed with mem := [] } = none := by
  unfold Final; decide

theorem witness_PlacedWordIsTheNextInstruction :
    State.reset.pc % 4 = 0 ∧ decode 0xB0640008 = .ok (.sth 3 8 4) ∧ (State.reset.pc - 1 < State.reset.pc)
      := by decide

theorem witness_LoadedWordsStandInOrder :
    0 < [(0xB0640008 : Word), 0xB4640002].length ∧ 1 < [(0xB0640008 : Word), 0xB4640002].length ∧
      0xFFFF < 0x10000 ∧ 0x10000 + 4 * [(0xB0640008 : Word), 0xB4640002].length ≤ 0x10008 := by decide

/-- The text ends at the end of the address space. -/
theorem witness_LoadedProgramIsLaunched :
    State.reset.mem.wf ∧ (reservations State.reset).Nodup ∧ (∀ r, State.reset.holdsValue r = true) ∧
      0xFFFFFFFC % 4 = 0 ∧
      [(0xB0640008 : Word)] ≠ [] ∧ 0xFFFFFFFC + 4 * [(0xB0640008 : Word)].length ≤ 2 ^ 32 ∧
      0xFFFFFFFC < 2 ^ State.reset.launch.pcw := by decide

/-- With RA field 0 the state may hold no value in r0; the last displacement reaches the last even address. -/
theorem witness_SthStoresTheLowHalf : PassesChecks (.sth 3 8 4) placed ∧
    PassesChecks (.sth 3 8 0) (withoutValue 0 placed) ∧
    addressSth 0xFFFE 0 placed = 0xFFFFFFFE ∧ PassesChecks (.sth 3 0xFFFE 0) placed := by
  simp only [passes_iff, accepted_iff]; decide

theorem witness_SthuStoresAndUpdates : (4 : Reg) ≠ 0 ∧ PassesChecks (.sthu 3 2 4) placed ∧
    (snapshotPolicy placed).launch.invalidFormPolicy = .snapshot ∧
    PassesChecks (.sthu 3 2 0) (snapshotPolicy placed) := by
  simp only [passes_iff, accepted_iff]; decide

theorem witness_SthuxStoresAndUpdates : (4 : Reg) ≠ 0 ∧ PassesChecks (.sthux 3 4 5) placed ∧
    (snapshotPolicy placed).launch.invalidFormPolicy = .snapshot ∧
    PassesChecks (.sthux 3 0 5) (snapshotPolicy placed) := by
  simp only [passes_iff, accepted_iff]; decide

theorem witness_SthxStoresTheLowHalf : PassesChecks (.sthx 3 4 5) placed ∧
    PassesChecks (.sthx 3 0 0) placed := by
  simp only [passes_iff, accepted_iff]; decide

theorem witness_AddressIgnoresHighRegisterHalves :
    addressReads (.sth 3 8 4) 4 = true ∧
    ∀ r, addressReads (.sth 3 8 4) r = true →
      (placed.readReg r).setWidth 32
        = ((placed.writeReg 4 0xFFFFFFFF10000000).readReg r).setWidth 32 := by decide

theorem witness_LowHalfOfSourceIsStored : PassesChecks (.sthu 3 2 4) placed ∧
    updatedReg (.sthu 3 2 4) ≠ some (sourceReg (.sthu 3 2 4)) := by
  simp only [passes_iff, accepted_iff]; decide

theorem witness_HighSourceBitsDoNotMatter :
    addressReads (.sth 3 8 4) (sourceReg (.sth 3 8 4)) = false ∧
    updatedReg (.sth 3 8 4) ≠ some (sourceReg (.sth 3 8 4)) ∧
    placed.holdsValue (sourceReg (.sth 3 8 4)) = true ∧
    (0xFFFFFFFFFFFF7788 : Dword).setWidth 16
      = (placed.readReg (sourceReg (.sth 3 8 4))).setWidth 16 := by decide

theorem witness_UnreadRegistersDoNotMatter :
    addressReads (.sth 3 8 0) 0 = false ∧ (0 : Reg) ≠ sourceReg (.sth 3 8 0) ∧
      updatedReg (.sth 3 8 0) ≠ some 0 := by decide

theorem witness_UpdateWritesZeroExtendedAddress :
    updatedReg (.sthux 3 4 5) = some 4 ∧ PassesChecks (.sthux 3 4 5) placed := by
  simp only [passes_iff, accepted_iff]; decide

/-- One for each clause, x = 4; for `sthx` also x = 0. -/
theorem witness_SameRegisterInTwoFieldsReadsOldValue :
    PassesChecks (.sthu 4 2 4) placed ∧ PassesChecks (.sthux 4 4 5) placed ∧
    PassesChecks (.sthux 3 4 4) placed ∧ PassesChecks (.sthux 4 5 4) placed ∧ (4 : Reg) ≠ 5 ∧
    PassesChecks (.sthx 3 4 4) placed ∧ PassesChecks (.sthx 3 0 0) placed ∧
    PassesChecks (.sthx 4 4 5) placed ∧ PassesChecks (.sthx 0 0 5) placed ∧
    PassesChecks (.sthx 4 5 4) placed ∧ PassesChecks (.sthx 4 0 4) placed ∧
    PassesChecks (.sth 4 2 4) placed := by
  simp only [passes_iff, accepted_iff]
  and_intros <;> decide

theorem exec_stored : exec (.sthu 3 2 4) placed = .next stored :=
  exec_of_checks (by decide)

/-- For InstructionFrame, PcAdvancesByFour, StoreEndsReservationsOnItsGranule and MemWriteIsBigEndian. -/
theorem witness_InstructionFrame : exec (.sthu 3 2 4) placed = .next stored ∧
    updatedReg (.sthu 3 2 4) ≠ some 0 ∧
    0x10000001 ≠ (storeAddress (.sthu 3 2 4) placed).toNat ∧
    0x10000001 ≠ (storeAddress (.sthu 3 2 4) placed).toNat + 1 :=
  ⟨exec_stored, by decide⟩

/-- The highest accepted address is even, the highest odd one 0xFFFFFFFD. -/
theorem witness_StoreNeedsNoAlignment : FormAllowed (.sth 3 0xFFFD 0) placed ∧
    RegistersHeld (.sth 3 0xFFFD 0) placed ∧
    (storeAddress (.sth 3 0xFFFD 0) placed).toNat = 0xFFFFFFFD ∧
    (storeAddress (.sth 3 0xFFFD 0) placed).toNat + 1 < 2 ^ 32 ∧
    inText placed.launch (storeAddress (.sth 3 0xFFFD 0) placed).toNat = false ∧
    inText placed.launch ((storeAddress (.sth 3 0xFFFD 0) placed).toNat + 1) = false ∧
    admits placed.launch (storeAddress (.sth 3 0xFFFD 0) placed).toNat 2 = true ∧
    placed.pc + 4 < 2 ^ placed.launch.pcw := by
  unfold FormAllowed RegistersHeld; decide

theorem witness_NoRegisterIsHardwired : (1 : Reg) ≠ 0 ∧ sourceReg (.sth 0 8 4) = 0 ∧
    exec (.sth 0 8 4) placed = .next (storeState (.sth 0 8 4) placed) :=
  ⟨by decide, rfl, exec_of_checks (by decide)⟩

theorem witness_MemWriteIsBigEndian : 0xFFFFFFFC + 4 ≤ 2 ^ 32 ∧ 3 < 4 ∧ 0xFFFFFFFE + 2 ≤ 2 ^ 32 ∧
    exec (.sthu 3 2 4) placed = .next stored := ⟨by decide, by decide, by decide, exec_stored⟩

theorem witness_MixedWidthReadsAfterAStore :
    Memory.read [(0x10002, (0x5A : Byte))] (0x10000 + 2) = some 0x5A := by decide

/-- The second store overlaps the first in one byte. -/
theorem witness_LaterStoreOverwritesEarlier : exec (.sthu 3 2 4) placed = .next stored ∧
    exec (.sth 5 1 4) stored = .next (storeState (.sth 5 1 4) stored) ∧
    (storeAddress (.sthu 3 2 4) placed).toNat ≠ (storeAddress (.sth 5 1 4) stored).toNat ∧
    (storeAddress (.sthu 3 2 4) placed).toNat ≠ (storeAddress (.sth 5 1 4) stored).toNat + 1 :=
  ⟨exec_stored, exec_of_checks (by decide), by decide⟩

/-- And the other way round: the second store takes the first byte of the first. -/
theorem witness_LaterStoreOverwritesEarlier_second_byte : exec (.sthu 3 2 4) placed = .next stored ∧
    exec (.sth 5 0xFFFF 4) stored = .next (storeState (.sth 5 0xFFFF 4) stored) ∧
    (storeAddress (.sthu 3 2 4) placed).toNat + 1 ≠ (storeAddress (.sth 5 0xFFFF 4) stored).toNat ∧
    (storeAddress (.sthu 3 2 4) placed).toNat ≠ (storeAddress (.sth 5 0xFFFF 4) stored).toNat :=
  ⟨exec_stored, exec_of_checks (by decide), by decide⟩

/-- The next instruction has the updated register as RS. -/
theorem witness_UpdateIsSeenByTheNextInstruction :
    updatedReg (.sthu 3 2 4) = some 4 ∧ exec (.sthu 3 2 4) placed = .next stored ∧ (4 : Reg) ≠ 0 ∧
    sourceReg (.sth 4 8 0) = 4 ∧ exec (.sth 4 8 0) stored = .next (storeState (.sth 4 8 0) stored) :=
  ⟨rfl, exec_stored, by decide, rfl, exec_of_checks (by decide)⟩

theorem witness_ChecksAnswerInOrder_form : ¬ FormAllowed (.sthu 3 2 0) placed := by
  unfold FormAllowed; decide

theorem witness_ChecksAnswerInOrder_registers : FormAllowed (.sth 3 8 4) (withoutValue 4 placed) ∧
    ¬ RegistersHeld (.sth 3 8 4) (withoutValue 4 placed) := by
  unfold FormAllowed RegistersHeld; decide

/-- r31 as RB alone, the last register of the list. -/
theorem witness_ReadOfARegisterWithoutAValueFaults :
    FormAllowed (.sthux 3 4 31) (withoutValue 31 placed) ∧ 31 ∈ registersRead (.sthux 3 4 31) ∧
    (withoutValue 31 placed).holdsValue 31 = false := by
  unfold FormAllowed; decide

theorem witness_ChecksAnswerInOrder_top :
    FormAllowed (.sth 3 0xFFFF 0) placed ∧ RegistersHeld (.sth 3 0xFFFF 0) placed ∧
    storeAddress (.sth 3 0xFFFF 0) placed = 0xFFFFFFFF := by
  unfold FormAllowed RegistersHeld; decide

/-- The first and the last address whose half word touches the text. -/
theorem witness_ChecksAnswerInOrder_text :
    FormAllowed (.sth 3 0 6) (placed.writeReg 6 0xFFFF) ∧
    RegistersHeld (.sth 3 0 6) (placed.writeReg 6 0xFFFF) ∧
    storeAddress (.sth 3 0 6) (placed.writeReg 6 0xFFFF) ≠ 0xFFFFFFFF ∧
    inText (placed.writeReg 6 0xFFFF).launch
      ((storeAddress (.sth 3 0 6) (placed.writeReg 6 0xFFFF)).toNat + 1) = true ∧
    FormAllowed (.sth 3 0 6) (placed.writeReg 6 0x10003) ∧
    RegistersHeld (.sth 3 0 6) (placed.writeReg 6 0x10003) ∧
    storeAddress (.sth 3 0 6) (placed.writeReg 6 0x10003) ≠ 0xFFFFFFFF ∧
    inText (placed.writeReg 6 0x10003).launch
      (storeAddress (.sth 3 0 6) (placed.writeReg 6 0x10003)).toNat = true := by
  unfold FormAllowed RegistersHeld; decide

/-- `placed` with no access admitted above the address 0x1000. -/
def narrow : State := { placed with launch := { placed.launch with admitted := [⟨0, 0x1000, 2⟩] } }

theorem witness_ChecksAnswerInOrder_admits : FormAllowed (.sth 3 0x1001 0) narrow ∧
    RegistersHeld (.sth 3 0x1001 0) narrow ∧
    storeAddress (.sth 3 0x1001 0) narrow ≠ 0xFFFFFFFF ∧
    inText narrow.launch (storeAddress (.sth 3 0x1001 0) narrow).toNat = false ∧
    inText narrow.launch ((storeAddress (.sth 3 0x1001 0) narrow).toNat + 1) = false ∧
    admits narrow.launch (storeAddress (.sth 3 0x1001 0) narrow).toNat 2 = false ∧
    admits narrow.launch 0x1000 2 = true := by
  unfold FormAllowed RegistersHeld; decide

theorem witness_ChecksAnswerInOrder_pc : FormAllowed (.sth 3 8 4) { placed with pc := 0xFFFFFFFC } ∧
    RegistersHeld (.sth 3 8 4) { placed with pc := 0xFFFFFFFC } ∧
    storeAddress (.sth 3 8 4) { placed with pc := 0xFFFFFFFC } ≠ 0xFFFFFFFF ∧
    admits placed.launch (storeAddress (.sth 3 8 4) { placed with pc := 0xFFFFFFFC }).toNat 2 = true ∧
    2 ^ placed.launch.pcw ≤ { placed with pc := 0xFFFFFFFC }.pc + 4 := by
  unfold FormAllowed RegistersHeld; decide

theorem witness_ChecksAnswerInOrder_pass : PassesChecks (.sth 3 8 4) placed := by
  simp only [passes_iff, accepted_iff]; decide

theorem witness_InvalidFormIsRefusedByDefault : placed.launch.invalidFormPolicy = .refuse := rfl

theorem witness_SnapshotPolicyRunsInvalidFormsOnR0 :
    (snapshotPolicy placed).launch.invalidFormPolicy = .snapshot ∧
    RegistersHeld (.sthu 3 8 0) (snapshotPolicy placed) ∧
    RegistersHeld (.sthux 3 0 5) (snapshotPolicy placed) ∧
    StoreAccepted (((snapshotPolicy placed).readReg 0 + (8 : BitVec 16).signExtend 64).setWidth 32)
      (snapshotPolicy placed) ∧
    StoreAccepted (((snapshotPolicy placed).readReg 0 + (snapshotPolicy placed).readReg 5).setWidth 32)
      (snapshotPolicy placed) := by
  simp only [accepted_iff]; unfold RegistersHeld; decide

/-- `placed` with granules of 8 bytes and a reservation on the granule of 0x10000000. -/
def reserving : State := withTable (some ⟨true, [⟨1, 0x10000000 / 8⟩]⟩) 3 placed

/-- The last address of the granule whose half word does not cross: 0x10000006. -/
theorem witness_StoreInOneGranuleHasOneOutcome :
    exec (.sth 3 6 4) reserving = .next (storeState (.sth 3 6 4) reserving) ∧
    reserving.reservationTable = some ⟨true, [⟨1, 0x10000000 / 8⟩]⟩ ∧
    granuleOf reserving.launch ((storeAddress (.sth 3 6 4) reserving).toNat + 1)
      = granuleOf reserving.launch (storeAddress (.sth 3 6 4) reserving).toNat :=
  ⟨exec_of_checks (by decide), by decide⟩

/-- The first that crosses: 0x10000007. -/
theorem witness_StoreEndsReservationsOnItsGranule :
    exec (.sth 3 7 4) reserving = .next (storeState (.sth 3 7 4) reserving) ∧
    crossesGranule reserving.launch (storeAddress (.sth 3 7 4) reserving) = true :=
  ⟨exec_of_checks (by decide), by decide⟩

theorem step_placed : step placed = .next (storeState (.sth 3 8 4) placed) :=
  step_eq_next.2 ⟨0xB0640008, .sth 3 8 4, by simp only [fetches_iff]; decide, by decide,
    exec_of_checks (by decide)⟩

/-- For the three statements about runs: a run of one step from a placed word. -/
theorem witness_RunsCreateNoReservation :
    Host.Core.run core 1 placed = .next (storeState (.sth 3 8 4) placed) := by
  simp only [Host.Core.run, core, step_placed]

theorem witness_ProgramTextIsFixedForTheRun :
    Host.Core.run core 1 placed = .next (storeState (.sth 3 8 4) placed) ∧
      inText placed.launch 0x10000 = true ∧ inText placed.launch 0x10003 = true :=
  ⟨witness_RunsCreateNoReservation, by decide⟩

theorem witness_StepKeepsTheMachineInvariant :
    MachineInv placed ∧ step placed = .next (storeState (.sth 3 8 4) placed) :=
  ⟨by unfold MachineInv; decide, step_placed⟩

theorem onText_placed : OnText placed := by
  refine ⟨rfl, rfl, rfl, by decide, by decide, fun a h => ?_⟩
  obtain ⟨h1, h2⟩ := inText_eq_true.1 h
  have h1 : 0x10000 ≤ a := h1
  have h2 : a < 0x10004 := h2
  interval_cases a <;> decide

theorem witness_StraightLineRunStaysOnItsText :
    OnText placed ∧ step placed = .next (storeState (.sth 3 8 4) placed) ∧ ¬ Final placed :=
  ⟨onText_placed, step_placed, by unfold Final; decide⟩

/-- One step reaches EndPc; a bound of one more makes no further step. -/
theorem witness_RunToEndIsFinalAtEndPc : Final State.reset ∧ OnText placed ∧
    placed.launch.endPc ≤ placed.pc + 4 * 1 ∧ placed.launch.endPc ≤ placed.pc + 4 * 2 ∧
    runToEnd 1 placed = .next (storeState (.sth 3 8 4) placed) ∧
    runToEnd 2 placed = .next (storeState (.sth 3 8 4) placed) :=
  ⟨rfl, onText_placed, by decide, by decide,
    by rw [runToEnd, if_neg (by decide), step_placed]; rfl,
    by rw [runToEnd, if_neg (by decide), step_placed]; rfl⟩

theorem witness_RegistersThatHoldValuesKeepThem : (∀ r, placed.holdsValue r = true) ∧
    step placed = .next (storeState (.sth 3 8 4) placed) := ⟨by decide, step_placed⟩

theorem witness_ResetStateIsAsLogged : (0xFFFFFFFE : Addr) ≠ 0xFFFFFFFF := by decide

end Sys2Proof.Tests
end

/-! ## What a store that goes through leaves in memory, and the frame of every instruction -/
namespace Sys2Proof.Machine

/-- A read after a half-word `MemWrite`: the high byte at its address, the low byte at the next, elsewhere what
was there before (20_memory.md R30). -/
theorem read_memWrite_two (m : Memory) (a : Nat) (v : Half) (x : Nat) :
    (m.memWrite a 2 v).read x =
      if x = a then some (v.extractLsb 15 8) else if x = a + 1 then some (v.extractLsb 7 0)
      else m.read x := by
  rw [memWrite_two, read_write, read_write]
  by_cases hx : x = a <;> simp [hx]

/-- The high byte of the value stored is bits 15 to 8 of the register (40_store_halfword.md R70). -/
theorem halfwordOf_high (r : Reg) (s : State) :
    (halfwordOf r s).extractLsb 15 8 = (s.readReg r).extractLsb 15 8 := by
  ext k hk
  have hlow : 8 + k < 16 := by omega
  simp [halfwordOf, BitVec.extractLsb, hlow]

/-- The low byte of the value stored is bits 7 to 0 of the register (40_store_halfword.md R70). -/
theorem halfwordOf_low (r : Reg) (s : State) :
    (halfwordOf r s).extractLsb 7 0 = (s.readReg r).extractLsb 7 0 := by
  ext k hk
  have hlow : k < 16 := by omega
  simp [halfwordOf, BitVec.extractLsb, hlow]

/-- Every byte of memory after an instruction that goes through. -/
theorem storeState_read (i : Instr) (s : State) (x : Nat) :
    (storeState i s).mem.read x =
      if x = (storeAddress i s).toNat then some ((s.readReg (sourceReg i)).extractLsb 15 8)
      else if x = (storeAddress i s).toNat + 1 then some ((s.readReg (sourceReg i)).extractLsb 7 0)
      else s.mem.read x := by
  rw [storeState_mem, read_memWrite_two, halfwordOf_high, halfwordOf_low]

/-- The reservation step keeps the table's presence and enablement (10_state.md R22). -/
theorem reservationsAfter_map_enabled (ea : Addr) (s : State) :
    (reservationsAfter ea s).map (·.enabled) = s.reservationTable.map (·.enabled) := by
  cases h : s.reservationTable with
  | none => rw [reservationsAfter_none h]
  | some b =>
    rw [reservationsAfter_some h]
    by_cases hacts : tableActs b = true <;> simp [hacts]

/-- `Res` only loses members, in any state whose table is the one the reservation step leaves
(20_memory.md R42). -/
theorem reservations_sublist_of_reservationsAfter {ea : Addr} {s t : State}
    (ht : t.reservationTable = reservationsAfter ea s) :
    (reservations t).Sublist (reservations s) := by
  cases h : s.reservationTable with
  | none =>
    rw [reservationsAfter_none h] at ht
    simp [reservations, ht, h]
  | some b =>
    rw [reservationsAfter_some h] at ht
    by_cases hacts : tableActs b = true
    · simpa [reservations, ht, h, hacts] using invalidateForWrite_sublist _ _ _ _
    · simp [reservations, ht, h, hacts]

/-- Settles O26: a next state is `storeState`, whose fields are known one by one. -/
theorem instructionFrame : Obligations.InstructionFrame := by
  intro i s t hexec
  obtain ⟨⟨-, hheld, -⟩, rfl⟩ := exec_eq_next.1 hexec
  refine ⟨fun r hr => ?_, storeState_holdsValue hheld, fun a h0 h1 => ?_, storeState_xer i s,
    storeState_launch i s, ?_, ?_⟩
  · rw [storeState_readReg, if_neg hr]
  · rw [storeState_read, if_neg h0, if_neg h1]
  · rw [storeState_reservationTable, reservationsAfter_map_enabled]
  · exact reservations_sublist_of_reservationsAfter (storeState_reservationTable i s)

/-- The operand of an RA0 field of 0 is zero (40_store_halfword.md R64). -/
@[simp] theorem baseRA0_zero (s : State) : baseRA0 0 s = 0 := if_pos rfl

/-- The operand of any other RA0 field is the register it names (40_store_halfword.md R64). -/
theorem baseRA0_of_ne_zero {ra : Reg} (h : ra ≠ 0) (s : State) : baseRA0 ra s = s.readReg ra := if_neg h

/-- What an instruction that goes through leaves at EA and EA + 1 (40_store_halfword.md R70). -/
theorem storedAt_of_exec {i : Instr} {s t : State} (h : exec i s = .next t) :
    StoredAt (storeAddress i s) (s.readReg (sourceReg i)) t := by
  obtain ⟨-, rfl⟩ := exec_eq_next.1 h
  constructor
  · rw [storeState_read, if_pos rfl]
  · rw [storeState_read, if_neg (Nat.succ_ne_self _), if_pos rfl]

/-- Settles O29: the register file has no case for r0; only the operand `baseRA0` tests its field for zero. -/
theorem noRegisterIsHardwired : Obligations.NoRegisterIsHardwired := by
  refine ⟨fun s r x => ⟨?_, fun q hq => ?_⟩, fun s rs ra rb d => ?_, fun i s t h0 hexec => ?_⟩
  · rw [readReg_writeReg, if_pos rfl]
  · rw [readReg_writeReg, if_neg hq]
  · refine ⟨?_, ?_, ?_, fun hra => ?_, rfl⟩
    · simp [storeAddress, addressSth]
    · simp [storeAddress, addressSthx, index]
    · simp [storeAddress, addressSthx, index]
    · simp [storeAddress, addressSthx, index, baseRA0_of_ne_zero hra]
  · have hstored := storedAt_of_exec hexec
    rwa [h0] at hstored

end Sys2Proof.Machine

/-! ## `MemWrite` of any size, byte by byte, and when a store is accepted -/
namespace Sys2Proof.Machine

/-- A read after the first `j` byte writes of a `MemWrite`: byte `k` of the value at `a + k` for `k` below `j`,
elsewhere what was there before (20_memory.md R30). -/
theorem read_writeFirst (m : Memory) (a n : Nat) (v : BitVec (8 * n)) (j x : Nat) :
    (m.writeFirst a n v j).read x =
      if a ≤ x ∧ x < a + j then some (byteBE n v (x - a)) else m.read x := by
  induction j with
  | zero => rw [if_neg (by omega)]; rfl
  | succ j ih =>
    rw [Memory.writeFirst, read_write, ih]
    by_cases hlast : x = a + j
    · subst hlast
      rw [if_pos rfl, if_pos (by omega), Nat.add_sub_cancel_left]
    · have hrange : a ≤ x ∧ x < a + (j + 1) ↔ a ≤ x ∧ x < a + j := by omega
      simp only [if_neg hlast, hrange]

/-- `MemWrite` puts byte `k` of the value, most significant first, at `a + k` (20_memory.md R30). -/
theorem read_memWrite_inside (m : Memory) (a : Nat) {n k : Nat} (v : BitVec (8 * n)) (hk : k < n) :
    (m.memWrite a n v).read (a + k) = some (byteBE n v k) := by
  rw [Memory.memWrite, read_writeFirst, if_pos (by omega), Nat.add_sub_cancel_left]

/-- `MemWrite` changes no byte outside its range (20_memory.md R30). -/
theorem read_memWrite_outside (m : Memory) {a n b : Nat} (v : BitVec (8 * n))
    (hb : b < a ∨ a + n ≤ b) : (m.memWrite a n v).read b = m.read b := by
  rw [Memory.memWrite, read_writeFirst, if_neg (by omega)]

/-- Byte `k` of a value as a number: the digit of weight 256^(n-k-1) (20_memory.md R30). -/
theorem byteBE_eq_ofNat (n : Nat) (v : BitVec (8 * n)) (k : Nat) :
    byteBE n v k = BitVec.ofNat 8 (v.toNat / 2 ^ (8 * (n - k - 1))) := by
  rw [byteBE, BitVec.extractLsb', Nat.shiftRight_eq_div_pow, Nat.sub_right_comm]

/-- The one address without a next byte is the last (20_memory.md R36). -/
theorem addr_ne_last_iff (ea : Addr) : ea ≠ 0xFFFFFFFF ↔ ea.toNat + 1 < 2 ^ 32 := by
  have hlast : (0xFFFFFFFF : Addr).toNat = 0xFFFFFFFF := rfl
  have hlt := ea.isLt
  rw [Ne, ← BitVec.toNat_inj, hlast]
  omega

/-- A store is accepted where both its bytes exist and lie outside the text, the access is admitted and pc can
advance: no condition is on the low bit of the address (20_memory.md R35, 40_store_halfword.md R74). -/
theorem storeAccepted_iff {ea : Addr} {s : State} :
    StoreAccepted ea s ↔ ea.toNat + 1 < 2 ^ 32 ∧
      (inText s.launch ea.toNat = false ∧ inText s.launch (ea.toNat + 1) = false) ∧
      admits s.launch ea.toNat 2 = true ∧ s.pc + 4 < 2 ^ s.launch.pcw := by
  rw [StoreAccepted, addr_ne_last_iff, touchesText_two, Bool.or_eq_false_iff]

/-- Settles O27: the premises are the checks, spelled byte by byte, so the next state is `storeState`. -/
theorem storeNeedsNoAlignment : Obligations.StoreNeedsNoAlignment := by
  intro i s hform hheld hsecond htext htext' hadmits hpc
  have haccepted : StoreAccepted (storeAddress i s) s :=
    storeAccepted_iff.2 ⟨hsecond, ⟨htext, htext'⟩, hadmits, hpc⟩
  have hexec : exec i s = .next (storeState i s) := exec_eq_next.2 ⟨⟨hform, hheld, haccepted⟩, rfl⟩
  exact ⟨storeState i s, hexec, storeState_mem i s, storedAt_of_exec hexec⟩

/-- Settles O31: the bytes by induction on the byte writes made, the half word as its two writes, and the
premises of an instruction's `MemWrite` from the checks it passed. -/
theorem memWriteIsBigEndian : Obligations.MemWriteIsBigEndian := by
  refine ⟨fun m a n v _ => ⟨fun k hk => ?_, fun b hb => ?_⟩, fun m a v _ => ⟨?_, ?_⟩,
    fun i s t hexec => ?_⟩
  · rw [read_memWrite_inside m a v hk, byteBE_eq_ofNat]
  · exact read_memWrite_outside m v hb
  · rw [read_memWrite_two, if_pos rfl]
  · rw [read_memWrite_two, if_neg (Nat.succ_ne_self a), if_pos rfl]
  · obtain ⟨⟨-, -, haccepted⟩, -⟩ := exec_eq_next.1 hexec
    obtain ⟨hsecond, -, hadmits, -⟩ := storeAccepted_iff.1 haccepted
    exact ⟨by omega, hadmits⟩

end Sys2Proof.Machine

/-! ## The value stored, the value written back, and the base operand -/
namespace Sys2Proof.Machine

/-- An instruction that passes its checks goes through, to the state `storeState` names. -/
theorem exec_of_passesChecks {i : Instr} {s : State} (h : PassesChecks i s) :
    exec i s = .next (storeState i s) := exec_eq_next.2 ⟨h, rfl⟩

/-- The RA of an update form that goes through ends as the address, zero-extended
(40_store_halfword.md R73). -/
theorem readReg_of_exec_updated {i : Instr} {s t : State} {ra : Reg} (h : exec i s = .next t)
    (hra : updatedReg i = some ra) : t.readReg ra = (storeAddress i s).setWidth 64 := by
  obtain ⟨-, rfl⟩ := exec_eq_next.1 h
  rw [storeState_readReg, if_pos hra]

/-- A register that is not the RA of an update form stays (10_state.md R27). -/
theorem readReg_of_exec_not_updated {i : Instr} {s t : State} {r : Reg} (h : exec i s = .next t)
    (hr : updatedReg i ≠ some r) : t.readReg r = s.readReg r := by
  obtain ⟨-, rfl⟩ := exec_eq_next.1 h
  rw [storeState_readReg, if_neg hr]

/-- Settles O21: the next state holds the two bytes and keeps every register but the updated one. -/
theorem lowHalfOfSourceIsStored : Obligations.LowHalfOfSourceIsStored := by
  intro i s hpass
  have hexec := exec_of_passesChecks hpass
  obtain ⟨hhigh, hlow⟩ := storedAt_of_exec hexec
  exact ⟨storeState i s, hexec, hhigh, hlow, readReg_of_exec_not_updated hexec⟩

/-- Bits 31 to 0 of `zext_64(EA)` are the address (40_store_halfword.md R73). -/
theorem zext_extractLsb_low (ea : Addr) : (ea.setWidth 64).extractLsb 31 0 = ea := by
  ext k hk
  have hwide : k < 64 := by omega
  simp [BitVec.extractLsb, hwide, BitVec.getLsbD_eq_getElem hk]

/-- Bits 63 to 32 of `zext_64(EA)` are 0 (40_store_halfword.md R73). -/
theorem zext_extractLsb_high (ea : Addr) : (ea.setWidth 64).extractLsb 63 32 = 0 := by
  ext k hk
  simp [BitVec.extractLsb]

/-- Settles O24: the updated register holds `zext_64(EA)`, of which the two halves are known. -/
theorem updateWritesZeroExtendedAddress : Obligations.UpdateWritesZeroExtendedAddress := by
  intro i ra s hra hpass
  have hexec := exec_of_passesChecks hpass
  refine ⟨storeState i s, hexec, ?_⟩
  rw [readReg_of_exec_updated hexec hra]
  exact ⟨zext_extractLsb_low _, zext_extractLsb_high _⟩

section
variable (rs ra rb : Reg) (d : BitVec 16) (s : State)

/-! The address of each instruction over the registers it reads (40_store_halfword.md R66 to R69). -/

theorem storeAddress_sth : storeAddress (.sth rs d ra) s
    = effectiveAddress (if ra = 0 then 0 else s.readReg ra) (displacement d) := rfl

theorem storeAddress_sthu : storeAddress (.sthu rs d ra) s
    = effectiveAddress (s.readReg ra) (displacement d) := rfl

theorem storeAddress_sthux : storeAddress (.sthux rs ra rb) s
    = effectiveAddress (s.readReg ra) (s.readReg rb) := rfl

theorem storeAddress_sthx : storeAddress (.sthx rs ra rb) s
    = effectiveAddress (if ra = 0 then 0 else s.readReg ra) (s.readReg rb) := rfl

/-- `sthu` is a valid form exactly where its RA field is not 0 (30_encoding.md R57). -/
theorem wellFormed_sthu : Instr.wellFormed (.sthu rs d ra) = true ↔ ra ≠ 0 := bne_iff_ne

/-- `sthux` is a valid form exactly where its RA field is not 0 (30_encoding.md R57). -/
theorem wellFormed_sthux : Instr.wellFormed (.sthux rs ra rb) = true ↔ ra ≠ 0 := bne_iff_ne

end

/-- Settles O18: the address of each instruction, and when its form is valid. -/
theorem baseOperandByKind : Obligations.BaseOperandByKind := fun rs ra rb d s =>
  ⟨storeAddress_sth rs ra d s, storeAddress_sthx rs ra rb s, storeAddress_sthu rs ra d s,
    storeAddress_sthux rs ra rb s, rfl, rfl, wellFormed_sthu rs ra d, wellFormed_sthux rs ra rb⟩

/-- An update form that passes its checks stores the low half of the old RS at the address of the old
registers, then sets RA to that address (20_memory.md R43, 40_store_halfword.md R72). -/
theorem exec_update {i : Instr} {ra : Reg} {ea : Addr} {s : State} (hra : updatedReg i = some ra)
    (hea : storeAddress i s = ea) (hpass : PassesChecks i s) :
    ∃ t, exec i s = .next t ∧ StoredAt ea (s.readReg (sourceReg i)) t ∧
      t.readReg ra = ea.setWidth 64 := by
  subst hea
  have hexec := exec_of_passesChecks hpass
  exact ⟨storeState i s, hexec, storedAt_of_exec hexec, readReg_of_exec_updated hexec hra⟩

/-- A form without update that passes its checks stores the low half of RS and leaves every register
(20_memory.md R43, 40_store_halfword.md R72). -/
theorem exec_without_update {i : Instr} {ea : Addr} {s : State} (hnone : updatedReg i = none)
    (hea : storeAddress i s = ea) (hpass : PassesChecks i s) :
    ∃ t, exec i s = .next t ∧ StoredAt ea (s.readReg (sourceReg i)) t ∧
      ∀ r, t.readReg r = s.readReg r := by
  subst hea
  have hexec := exec_of_passesChecks hpass
  exact ⟨storeState i s, hexec, storedAt_of_exec hexec,
    fun r => readReg_of_exec_not_updated hexec (by simp [hnone])⟩

/-- A register as base and index: twice its low 32 bits (40_store_halfword.md R65, R72). -/
theorem effectiveAddress_self (x : Dword) : effectiveAddress x x = 2 * x.setWidth 32 := by
  rw [effectiveAddress, BitVec.setWidth_add x x (by decide)]
  exact BitVec.two_mul.symm

/-- The address of `sthx` with one register in RA and RB: twice its low 32 bits, but for r0, which is read
through RB alone (40_store_halfword.md R64, R72). -/
theorem storeAddress_sthx_self (rs x : Reg) (s : State) : storeAddress (.sthx rs x x) s
    = if x = 0 then (s.readReg 0).setWidth 32 else 2 * (s.readReg x).setWidth 32 := by
  rw [storeAddress_sthx]
  by_cases hx : x = 0
  · subst hx
    simp [effectiveAddress]
  · rw [if_neg hx, if_neg hx, effectiveAddress_self]

/-- The address of `sthux` with one register in RA and RB: twice its low 32 bits (40_store_halfword.md R72). -/
theorem storeAddress_sthux_self (rs x : Reg) (s : State) :
    storeAddress (.sthux rs x x) s = 2 * (s.readReg x).setWidth 32 :=
  effectiveAddress_self (s.readReg x)

/-- Settles O25: each clause is `exec_update` or `exec_without_update` at the address of that form; in
`sthux rX, rA, rX` the repeated register is not the one updated unless rX is rA. -/
theorem sameRegisterInTwoFieldsReadsOldValue : Obligations.SameRegisterInTwoFieldsReadsOldValue := by
  intro x rs ra rb d s
  refine ⟨exec_update rfl rfl, exec_update rfl rfl, exec_update rfl (storeAddress_sthux_self rs x s),
    fun hpass => ?_, exec_without_update rfl (storeAddress_sthx_self rs x s),
    exec_without_update rfl (storeAddress_sthx x x rb s),
    exec_without_update rfl (storeAddress_sthx x ra x s), exec_without_update rfl rfl⟩
  obtain ⟨t, hexec, hstored, hbase⟩ := exec_update rfl (storeAddress_sthux x ra x s) hpass
  refine ⟨t, hexec, hstored, hbase, fun hne => readReg_of_exec_not_updated hexec ?_⟩
  rw [updatedReg, Ne, Option.some_inj]
  exact hne.symm

end Sys2Proof.Machine

/-! ## The decoder's answers, one by one, and the fields of a word -/
namespace Sys2Proof

section
variable {w p q : Word}

/-- A word that matches an X row has OPCD 31, so it matches no D row (30_encoding.md R55). -/
theorem and_maskD_of_and_maskX (h : w &&& 0xFC0007FF#32 = p) :
    w &&& 0xFC000000#32 = p &&& 0xFC000000#32 := by
  rw [← h, BitVec.and_assoc]
  rfl

/-- A word that matches a D row has another OPCD than 31, so it matches no X row (30_encoding.md R55). -/
theorem and_maskX_ne_of_and_maskD (h : w &&& 0xFC000000#32 = q) (hpq : q ≠ p &&& 0xFC000000#32) :
    w &&& 0xFC0007FF#32 ≠ p :=
  fun hX => hpq (h.symm.trans (and_maskD_of_and_maskX hX))

end

/-- For each answer of the decoder, the words that get it, and with which operands (30_encoding.md R55 to
R59): what `decode_cases` says, read from the answer to the word. -/
structure DecodeAnswers (w : Word) : Prop where
  sth {rs : Reg} {d : BitVec 16} {ra : Reg} : decode w = .ok (.sth rs d ra) ↔
    w &&& 0xFC000000#32 = 0xB0000000#32 ∧ fieldRS w = rs ∧ fieldD w = d ∧ fieldRA w = ra
  sthu {rs : Reg} {d : BitVec 16} {ra : Reg} : decode w = .ok (.sthu rs d ra) ↔
    w &&& 0xFC000000#32 = 0xB4000000#32 ∧ fieldRS w = rs ∧ fieldD w = d ∧ fieldRA w = ra
  sthux {rs ra rb : Reg} : decode w = .ok (.sthux rs ra rb) ↔
    w &&& 0xFC0007FF#32 = 0x7C00036E#32 ∧ fieldRS w = rs ∧ fieldRA w = ra ∧ fieldRB w = rb
  sthx {rs ra rb : Reg} : decode w = .ok (.sthx rs ra rb) ↔
    w &&& 0xFC0007FF#32 = 0x7C00032E#32 ∧ fieldRS w = rs ∧ fieldRA w = ra ∧ fieldRB w = rb
  reservedBitSet : decode w = .error .reservedBitSet ↔
    w &&& 0xFC0007FF#32 = 0x7C00036F#32 ∨ w &&& 0xFC0007FF#32 = 0x7C00032F#32
  notInScope : decode w = .error .notInScope ↔
    w &&& 0xFC000000#32 ≠ 0xB0000000#32 ∧ w &&& 0xFC000000#32 ≠ 0xB4000000#32 ∧
      w &&& 0xFC0007FF#32 ≠ 0x7C00036E#32 ∧ w &&& 0xFC0007FF#32 ≠ 0x7C00032E#32 ∧
      w &&& 0xFC0007FF#32 ≠ 0x7C00036F#32 ∧ w &&& 0xFC0007FF#32 ≠ 0x7C00032F#32

/-- The answers exclude each other: a D row gives the word another OPCD than an X row, and two rows with one
mask have different patterns. -/
theorem decodeAnswers (w : Word) : DecodeAnswers w := by
  rcases decode_cases w with ⟨h, hd⟩ | ⟨h, hd⟩ | ⟨h, hd⟩ | ⟨h, hd⟩ | ⟨h | h, hd⟩ |
    ⟨hsth, hsthu, hsthux, hsthx, hsthux', hsthx', hd⟩
  case inl | inr.inl => constructor <;> simp [hd, h, and_maskX_ne_of_and_maskD h]
  case inr.inr.inr.inr.inr => constructor <;> simp [hd, hsth, hsthu, hsthux, hsthx, hsthux', hsthx']
  all_goals constructor <;> simp [hd, h, and_maskD_of_and_maskX h]

end Sys2Proof

/-! ## Decode and encode agree -/
namespace Sys2Proof

/-- A register field has five bits, so its number is that of the bits (30_encoding.md R51). -/
theorem regField_val (w : Word) (lo : Nat) : (regField w lo).val = (w.extractLsb' lo 5).toNat :=
  Nat.mod_eq_of_lt (w.extractLsb' lo 5).isLt

/-- A register number is told by its five bits. -/
theorem regField_eq_iff {w : Word} {lo : Nat} {r : Reg} :
    regField w lo = r ↔ w.extractLsb' lo 5 = BitVec.ofNat 5 r.val := by
  rw [Fin.ext_iff, regField_val, ← BitVec.toNat_inj, BitVec.toNat_ofNat, Nat.mod_eq_of_lt r.isLt]

/-- Each register field of a word reads the register placed there and no bit of one placed elsewhere
(30_encoding.md R51). -/
theorem extractLsb'_placeReg : ∀ r : Reg,
    ((placeReg r 21).extractLsb' 21 5 = BitVec.ofNat 5 r.val ∧ (placeReg r 21).extractLsb' 16 5 = 0#5 ∧
      (placeReg r 21).extractLsb' 11 5 = 0#5 ∧ (placeReg r 21).extractLsb' 0 16 = 0#16) ∧
    ((placeReg r 16).extractLsb' 21 5 = 0#5 ∧ (placeReg r 16).extractLsb' 16 5 = BitVec.ofNat 5 r.val ∧
      (placeReg r 16).extractLsb' 11 5 = 0#5 ∧ (placeReg r 16).extractLsb' 0 16 = 0#16) ∧
    ((placeReg r 11).extractLsb' 21 5 = 0#5 ∧ (placeReg r 11).extractLsb' 16 5 = 0#5 ∧
      (placeReg r 11).extractLsb' 11 5 = BitVec.ofNat 5 r.val) := by decide

/-- A displacement has no bit at 16 or above (30_encoding.md R51). -/
theorem extractLsb'_displacement_above (d : BitVec 16) {lo n : Nat} (hlo : 16 ≤ lo) :
    (d.setWidth 32).extractLsb' lo n = 0#n := by
  ext k hk
  simp [BitVec.getLsbD_of_ge d (lo + k) (by omega)]

/-- The low 16 bits of a displacement in a word are the displacement (30_encoding.md R51). -/
theorem extractLsb'_displacement_low (d : BitVec 16) : (d.setWidth 32).extractLsb' 0 16 = d := by
  ext k hk
  simp [show k < 32 by omega, BitVec.getLsbD_eq_getElem hk]

section
variable {b w : Word} {rs ra rb : Reg} {d : BitVec 16}

/-- The operands of a D-form word put together from its opcode and its fields. -/
theorem fields_of_D (hw : w = b ||| placeReg rs 21 ||| placeReg ra 16 ||| d.setWidth 32)
    (hrs : b.extractLsb' 21 5 = 0#5) (hra : b.extractLsb' 16 5 = 0#5) (hd : b.extractLsb' 0 16 = 0#16) :
    fieldRS w = rs ∧ fieldD w = d ∧ fieldRA w = ra := by
  subst hw
  simp [fieldRS, fieldRA, fieldD, regField_eq_iff, BitVec.extractLsb'_or, extractLsb'_placeReg,
    extractLsb'_displacement_above, extractLsb'_displacement_low, hrs, hra, hd]

/-- The operands of an X-form word put together from its opcodes and its fields. -/
theorem fields_of_X (hw : w = b ||| placeReg rs 21 ||| placeReg ra 16 ||| placeReg rb 11)
    (hrs : b.extractLsb' 21 5 = 0#5) (hra : b.extractLsb' 16 5 = 0#5) (hrb : b.extractLsb' 11 5 = 0#5) :
    fieldRS w = rs ∧ fieldRA w = ra ∧ fieldRB w = rb := by
  subst hw
  simp [fieldRS, fieldRA, fieldRB, regField_eq_iff, BitVec.extractLsb'_or, extractLsb'_placeReg,
    hrs, hra, hrb]

end

/-- The word of an instruction decodes to it: the row is right by `EncodedInItsRow`, the operands by
`fields_of_D` and `fields_of_X`. -/
theorem decode_encode (i : Instr) : decode (encode i) = .ok i := by
  cases i with
  | sth rs d ra =>
    exact (decodeAnswers _).sth.2 ⟨beq_iff_eq.1 (Laws.EncodedInItsRow.sth rs d ra),
      fields_of_D rfl (by decide) (by decide) (by decide)⟩
  | sthu rs d ra =>
    exact (decodeAnswers _).sthu.2 ⟨beq_iff_eq.1 (Laws.EncodedInItsRow.sthu rs d ra),
      fields_of_D rfl (by decide) (by decide) (by decide)⟩
  | sthux rs ra rb =>
    exact (decodeAnswers _).sthux.2 ⟨beq_iff_eq.1 (Laws.EncodedInItsRow.sthux rs ra rb),
      fields_of_X rfl (by decide) (by decide) (by decide)⟩
  | sthx rs ra rb =>
    exact (decodeAnswers _).sthx.2 ⟨beq_iff_eq.1 (Laws.EncodedInItsRow.sthx rs ra rb),
      fields_of_X rfl (by decide) (by decide) (by decide)⟩

/-- Settles O1: `decode_encode`, and the four bytes of a word make up that word. -/
theorem decodeOfEncodeIsTheInstruction : Obligations.DecodeOfEncodeIsTheInstruction := by
  intro i
  refine ⟨decode_encode i, ?_⟩
  rw [decodeBytes, wordOfBytes_byteOfWord, decode_encode]

/-- The register field at `lo`, placed back, is the word under the mask of that field. -/
theorem placeReg_regField (w : Word) (lo : Nat) :
    placeReg (regField w lo) lo = w &&& (0x1F#32 <<< lo) := by
  have hfield : BitVec.ofNat 32 (regField w lo).val = (w >>> lo) &&& 0x1F#32 := by
    apply BitVec.eq_of_toNat_eq
    have hmask : (0x1F#32).toNat = 2 ^ 5 - 1 := rfl
    rw [regField_val, BitVec.toNat_and, hmask, Nat.and_two_pow_sub_one_eq_mod]
    simp [BitVec.extractLsb'_toNat]
    omega
  rw [placeReg, hfield]
  ext k hk
  by_cases hlow : k < lo
  · simp [hlow]
  · simp [hlow, show lo + (k - lo) = k by omega, BitVec.getLsbD_eq_getElem hk]

/-- The displacement field, placed back, is the word under the mask of that field. -/
theorem setWidth_fieldD (w : Word) : (fieldD w).setWidth 32 = w &&& 0x0000FFFF#32 := by
  apply BitVec.eq_of_toNat_eq
  have hmask : (0x0000FFFF#32).toNat = 2 ^ 16 - 1 := rfl
  rw [BitVec.toNat_and, hmask, Nat.and_two_pow_sub_one_eq_mod]
  simp [fieldD]
  omega

/-- A D-form word is its opcode and its fields: the four masks cover every bit. -/
theorem word_of_D_fields (w : Word) : (w &&& 0xFC000000#32) ||| placeReg (fieldRS w) 21 |||
    placeReg (fieldRA w) 16 ||| (fieldD w).setWidth 32 = w := by
  rw [fieldRS, fieldRA, placeReg_regField, placeReg_regField, setWidth_fieldD,
    ← BitVec.and_or_distrib_left, ← BitVec.and_or_distrib_left, ← BitVec.and_or_distrib_left]
  exact BitVec.and_allOnes

/-- An X-form word is its opcodes and its fields: the four masks cover every bit. -/
theorem word_of_X_fields (w : Word) : (w &&& 0xFC0007FF#32) ||| placeReg (fieldRS w) 21 |||
    placeReg (fieldRA w) 16 ||| placeReg (fieldRB w) 11 = w := by
  rw [fieldRS, fieldRA, fieldRB, placeReg_regField, placeReg_regField, placeReg_regField,
    ← BitVec.and_or_distrib_left, ← BitVec.and_or_distrib_left, ← BitVec.and_or_distrib_left]
  exact BitVec.and_allOnes

/-- Settles O2: the opcode bits are the row's pattern and the other bits are the operands', which together are
the word. -/
theorem encodeOfDecodeIsTheWord : Obligations.EncodeOfDecodeIsTheWord := by
  intro w i hdecode
  cases i with
  | sth rs d ra =>
    obtain ⟨hrow, rfl, rfl, rfl⟩ := (decodeAnswers w).sth.1 hdecode
    have hword := word_of_D_fields w
    rwa [hrow] at hword
  | sthu rs d ra =>
    obtain ⟨hrow, rfl, rfl, rfl⟩ := (decodeAnswers w).sthu.1 hdecode
    have hword := word_of_D_fields w
    rwa [hrow] at hword
  | sthux rs ra rb =>
    obtain ⟨hrow, rfl, rfl, rfl⟩ := (decodeAnswers w).sthux.1 hdecode
    have hword := word_of_X_fields w
    rwa [hrow] at hword
  | sthx rs ra rb =>
    obtain ⟨hrow, rfl, rfl, rfl⟩ := (decodeAnswers w).sthx.1 hdecode
    have hword := word_of_X_fields w
    rwa [hrow] at hword

end Sys2Proof

/-! ## The rows, the fields and the rejected words, in the spec's own terms -/
namespace Sys2Proof

section
variable {w : Word}

/-! The four masks as conditions on OPCD, XO and Rc, with the figures of 30_encoding.md R54. -/

theorem and_maskD_sth : w &&& 0xFC000000#32 = 0xB0000000#32 ↔ w.extractLsb 31 26 = 44 :=
  and_maskD_iff w 0xB0000000#32 (by decide)

theorem and_maskD_sthu : w &&& 0xFC000000#32 = 0xB4000000#32 ↔ w.extractLsb 31 26 = 45 :=
  and_maskD_iff w 0xB4000000#32 (by decide)

theorem and_maskX_sthux : w &&& 0xFC0007FF#32 = 0x7C00036E#32 ↔
    w.extractLsb 31 26 = 31 ∧ w.extractLsb 10 1 = 439 ∧ w.extractLsb 0 0 = 0 :=
  and_maskX_iff w 0x7C00036E#32 (by decide)

theorem and_maskX_sthx : w &&& 0xFC0007FF#32 = 0x7C00032E#32 ↔
    w.extractLsb 31 26 = 31 ∧ w.extractLsb 10 1 = 407 ∧ w.extractLsb 0 0 = 0 :=
  and_maskX_iff w 0x7C00032E#32 (by decide)

theorem and_maskX_sthux_record : w &&& 0xFC0007FF#32 = 0x7C00036F#32 ↔
    w.extractLsb 31 26 = 31 ∧ w.extractLsb 10 1 = 439 ∧ w.extractLsb 0 0 = 1 :=
  and_maskX_iff w 0x7C00036F#32 (by decide)

theorem and_maskX_sthx_record : w &&& 0xFC0007FF#32 = 0x7C00032F#32 ↔
    w.extractLsb 31 26 = 31 ∧ w.extractLsb 10 1 = 407 ∧ w.extractLsb 0 0 = 1 :=
  and_maskX_iff w 0x7C00032F#32 (by decide)

/-- A word is rejected as ReservedBitSet where OPCD and XO are those of an X row and Rc = 1
(30_encoding.md R58). -/
theorem decode_eq_reservedBitSet : decode w = .error .reservedBitSet ↔
    w.extractLsb 31 26 = 31 ∧ (w.extractLsb 10 1 = 439 ∨ w.extractLsb 10 1 = 407) ∧
      w.extractLsb 0 0 = 1 := by
  rw [(decodeAnswers w).reservedBitSet, and_maskX_sthux_record, and_maskX_sthx_record, or_and_right,
    and_or_left]

/-- A word is rejected as NotInScope where it is of no row, Rc aside: the rows with Rc = 0 and the reserved
words with Rc = 1 make up every value of Rc (30_encoding.md R59). -/
theorem decode_eq_notInScope : decode w = .error .notInScope ↔
    w.extractLsb 31 26 ≠ 44 ∧ w.extractLsb 31 26 ≠ 45 ∧
      ¬ (w.extractLsb 31 26 = 31 ∧ (w.extractLsb 10 1 = 439 ∨ w.extractLsb 10 1 = 407)) := by
  rw [(decodeAnswers w).notInScope, Ne, Ne, Ne, Ne, Ne, Ne, and_maskD_sth, and_maskD_sthu, and_maskX_sthux,
    and_maskX_sthx, and_maskX_sthux_record, and_maskX_sthx_record]
  have hRc : w.extractLsb 0 0 = 0 ∨ w.extractLsb 0 0 = 1 := BitVec.eq_zero_or_eq_one _
  tauto

end

/-- Of two rows that match one word, each tests OPCD, and the X rows XO too, so they are the same row. -/
theorem row_eq_of_instanceOf {w : Word} {r r' : Row} (hr : r ∈ rows) (hr' : r' ∈ rows)
    (h : instanceOf w r = true) (h' : instanceOf w r' = true) : r = r' := by
  have hdistinct : ∀ q ∈ rows, ∀ q' ∈ rows,
      q.pattern &&& q'.mask = q'.pattern &&& q.mask → q = q' := by decide
  rw [instanceOf, beq_iff_eq] at h h'
  refine hdistinct r hr r' hr' ?_
  rw [← h, ← h', BitVec.and_assoc, BitVec.and_assoc, BitVec.and_comm r.mask]

/-- Settles O3: each row by the decoder's answer for it, whose operands are the word's own fields. -/
theorem opcodeRowsMatchByMask : Obligations.OpcodeRowsMatchByMask := by
  intro w
  refine ⟨⟨?_, fun h => ⟨_, _, _, (decodeAnswers w).sth.2 ⟨h, rfl, rfl, rfl⟩⟩⟩,
    ⟨?_, fun h => ⟨_, _, _, (decodeAnswers w).sthu.2 ⟨h, rfl, rfl, rfl⟩⟩⟩,
    ⟨?_, fun h => ⟨_, _, _, (decodeAnswers w).sthux.2 ⟨h, rfl, rfl, rfl⟩⟩⟩,
    ⟨?_, fun h => ⟨_, _, _, (decodeAnswers w).sthx.2 ⟨h, rfl, rfl, rfl⟩⟩⟩,
    fun r hr r' hr' => row_eq_of_instanceOf hr hr'⟩
  · rintro ⟨rs, d, ra, h⟩
    exact ((decodeAnswers w).sth.1 h).1
  · rintro ⟨rs, d, ra, h⟩
    exact ((decodeAnswers w).sthu.1 h).1
  · rintro ⟨rs, ra, rb, h⟩
    exact ((decodeAnswers w).sthux.1 h).1
  · rintro ⟨rs, ra, rb, h⟩
    exact ((decodeAnswers w).sthx.1 h).1

/-- Settles O4: the mask of the row gives OPCD, XO and Rc, and each operand is its field of the word. -/
theorem decodedFieldsAreTheWordsBits : Obligations.DecodedFieldsAreTheWordsBits := by
  refine fun w => ⟨fun rs d ra h => ?_, fun rs d ra h => ?_, fun rs ra rb h => ?_, fun rs ra rb h => ?_⟩
  · obtain ⟨hrow, rfl, rfl, rfl⟩ := (decodeAnswers w).sth.1 h
    exact ⟨and_maskD_sth.1 hrow, regField_val w 21, regField_val w 16, rfl⟩
  · obtain ⟨hrow, rfl, rfl, rfl⟩ := (decodeAnswers w).sthu.1 h
    exact ⟨and_maskD_sthu.1 hrow, regField_val w 21, regField_val w 16, rfl⟩
  · obtain ⟨hrow, rfl, rfl, rfl⟩ := (decodeAnswers w).sthux.1 h
    obtain ⟨hopcd, hxo, hrc⟩ := and_maskX_sthux.1 hrow
    exact ⟨hopcd, regField_val w 21, regField_val w 16, regField_val w 11, hxo, hrc⟩
  · obtain ⟨hrow, rfl, rfl, rfl⟩ := (decodeAnswers w).sthx.1 h
    obtain ⟨hopcd, hxo, hrc⟩ := and_maskX_sthx.1 hrow
    exact ⟨hopcd, regField_val w 21, regField_val w 16, regField_val w 11, hxo, hrc⟩

/-- Settles O7: five words, each evaluated by the decoder. -/
theorem sampleWordsDecode : Obligations.SampleWordsDecode := by
  refine ⟨?_, ?_, ?_, ?_, ?_⟩ <;> decide

end Sys2Proof

/-! ## The step at a fetch, and where there is none -/
namespace Sys2Proof.Machine

section
variable {s : State}

/-- A step at EndPc fetches nothing (70_reset_and_hazards.md R91, log 9). -/
theorem step_of_final (h : Final s) : step s = .refused .notInScope := if_pos h

/-- Short of EndPc a step first looks at the low two bits of pc (10_state.md R17). -/
theorem step_of_misaligned (hend : ¬ Final s) (hpc : s.pc % 4 ≠ 0) :
    step s = .refused .misalignedFetch := (if_neg hend).trans (if_pos hpc)

/-- At an aligned pc a step next looks whether it is at a word of the text (log 8). -/
theorem step_of_outside_text (hend : ¬ Final s) (hpc : s.pc % 4 = 0) (htext : fetchInText s = false) :
    step s = .refused .notInScope :=
  (if_neg hend).trans ((if_neg (not_not.2 hpc)).trans (if_pos (by rw [htext]; rfl)))

/-- At a word of the text with a byte that holds no value there is no word to decode (log 3). -/
theorem step_of_unwritten_word (hend : ¬ Final s) (hpc : s.pc % 4 = 0) (htext : fetchInText s = true)
    (hword : fetchWord s = none) : step s = .refused .notInScope := by
  have hend : s.pc ≠ s.launch.endPc := hend
  simp [step, fetchAndRun, hend, hpc, htext, hword]

/-- A step that fetches a word which decodes runs the instruction (30_encoding.md R56). -/
theorem step_of_decode_ok {w : Word} {i : Instr} (hf : Fetches s w) (hd : decode w = .ok i) :
    step s = exec i s := by
  obtain ⟨hend, hpc, htext, hword⟩ := hf
  have hend : s.pc ≠ s.launch.endPc := hend
  simp [step, fetchAndRun, hend, hpc, htext, hword, hd]

/-- A step that fetches a word the decoder rejects is refused by that rejection (30_encoding.md R58, R59). -/
theorem step_of_decode_error {w : Word} {e : DecodeError} (hf : Fetches s w)
    (hd : decode w = .error e) : step s = .refused (decodeRefusal e) := by
  obtain ⟨hend, hpc, htext, hword⟩ := hf
  have hend : s.pc ≠ s.launch.endPc := hend
  simp [step, fetchAndRun, hend, hpc, htext, hword, hd]

end

/-- Settles O5: the rejected words by their fields, and the step by the decoder's rejection. -/
theorem recordBitSetIsRefused : Obligations.RecordBitSetIsRefused :=
  ⟨fun _ => decode_eq_reservedBitSet, fun _ _ hf hopcd hxo hrc =>
    step_of_decode_error hf (decode_eq_reservedBitSet.2 ⟨hopcd, hxo, hrc⟩)⟩

/-- Settles O6: the rejected words by their fields, and the step by the decoder's rejection. -/
theorem otherWordsAreNotInScope : Obligations.OtherWordsAreNotInScope :=
  ⟨fun _ => decode_eq_notInScope, fun _ _ hf hsth hsthu hX =>
    step_of_decode_error hf (decode_eq_notInScope.2 ⟨hsth, hsthu, hX⟩)⟩

/-- Settles O9. -/
theorem stepRunsTheDecodedInstruction : Obligations.StepRunsTheDecodedInstruction :=
  fun _ _ _ => step_of_decode_ok

/-- Settles O10. -/
theorem stepWithoutAFetchStopsByName : Obligations.StepWithoutAFetchStopsByName := fun _ =>
  ⟨step_of_final, step_of_misaligned, step_of_outside_text, step_of_unwritten_word⟩

end Sys2Proof.Machine

/-! ## What each instruction and each step can answer -/
namespace Sys2Proof.Machine

section
variable {i : Instr} {s s' t : State} {ea : Addr}

theorem guardForm_of_allowed {ra : Reg} {k : Result}
    (h : ra ≠ 0 ∨ s.launch.invalidFormPolicy = .snapshot) : guardForm ra s k = k := by
  refine if_neg fun ⟨hra, hpolicy⟩ => ?_
  rcases h with h | h
  · exact h hra
  · simp [h] at hpolicy

theorem guardForm_of_refused {ra : Reg} {k : Result} (hra : ra = 0)
    (hpolicy : s.launch.invalidFormPolicy ≠ .snapshot) : guardForm ra s k = .refused .invalidForm := by
  refine if_pos ⟨hra, ?_⟩
  cases h : s.launch.invalidFormPolicy with
  | refuse => rfl
  | snapshot => exact absurd h hpolicy

theorem guardRegs_of_held {rs : List Reg} {k : Result} (h : ∀ r ∈ rs, s.holdsValue r = true) :
    guardRegs rs s k = k := if_pos (List.all_eq_true.2 h)

theorem guardRegs_of_not_held {rs : List Reg} {k : Result} (h : ¬ ∀ r ∈ rs, s.holdsValue r = true) :
    guardRegs rs s k = .fault .unwrittenRegister := if_neg (mt List.all_eq_true.1 h)

/-- An admitted access does not touch the text (20_memory.md R29, R44). -/
theorem not_touchesText_of_admits {l : Launch} {a n : Nat} (h : admits l a n = true) :
    touchesText l a n = false := by
  rw [admits, Bool.and_eq_true, Bool.not_eq_true'] at h
  exact h.2

/-! The checks of a store, each where those before it pass (40_store_halfword.md R74). -/

theorem guardStore_of_last (h : ea = 0xFFFFFFFF) : guardStore ea s t = .fault .addressWrap := if_pos h

theorem guardStore_of_touchesText (hea : ea ≠ 0xFFFFFFFF)
    (htext : touchesText s.launch ea.toNat 2 = true) :
    guardStore ea s t = .refused .storeIntoProgramText := by
  rw [guardStore, if_neg hea, if_pos htext]

theorem guardStore_of_not_admitted (hea : ea ≠ 0xFFFFFFFF)
    (htext : touchesText s.launch ea.toNat 2 = false) (hadmits : admits s.launch ea.toNat 2 = false) :
    guardStore ea s t = .fault .storageNotAdmitted := by
  rw [guardStore, if_neg hea, htext, hadmits]
  rfl

/-- The last check and the first answer the same fault, so `ea` may be the last address too. -/
theorem guardStore_of_pc_top (hadmits : admits s.launch ea.toNat 2 = true)
    (hpc : 2 ^ s.launch.pcw ≤ s.pc + 4) : guardStore ea s t = .fault .addressWrap := by
  simp [guardStore, not_touchesText_of_admits hadmits, hadmits, hpc]

/-- The checks of a store look at the launch parameters and pc alone. -/
theorem guardStore_congr (hlaunch : s'.launch = s.launch) (hpc : s'.pc = s.pc) :
    guardStore ea s' t = guardStore ea s t := by
  rw [guardStore, guardStore, hlaunch, hpc]

/-- An instruction of an allowed form: the registers it reads are checked, then its store, and `storeState` is
what it leaves (40_store_halfword.md R66 to R69, R74). -/
theorem exec_of_formAllowed (h : FormAllowed i s) : exec i s =
    guardRegs (registersRead i) s (guardStore (storeAddress i s) s (storeState i s)) := by
  cases i with
  | sth rs d ra => rfl
  | sthx rs ra rb => rfl
  | sthu rs d ra => exact guardForm_of_allowed (h.imp_left (wellFormed_sthu rs ra d).1)
  | sthux rs ra rb => exact guardForm_of_allowed (h.imp_left (wellFormed_sthux rs ra rb).1)

/-- An instruction of a form that is not allowed is an update form with RA field 0 (30_encoding.md R57). -/
theorem exec_of_not_formAllowed (h : ¬ FormAllowed i s) : exec i s = .refused .invalidForm := by
  obtain ⟨hform, hpolicy⟩ := not_or.1 h
  cases i with
  | sth rs d ra => exact absurd rfl hform
  | sthx rs ra rb => exact absurd rfl hform
  | sthu rs d ra =>
    exact guardForm_of_refused (not_not.1 (mt (wellFormed_sthu rs ra d).2 hform)) hpolicy
  | sthux rs ra rb =>
    exact guardForm_of_refused (not_not.1 (mt (wellFormed_sthux rs ra rb).2 hform)) hpolicy

/-- An allowed form that reads a register without a value faults, whatever its address (10_state.md R26). -/
theorem exec_of_not_registersHeld (hform : FormAllowed i s) (hheld : ¬ RegistersHeld i s) :
    exec i s = .fault .unwrittenRegister := by
  rw [exec_of_formAllowed hform, guardRegs_of_not_held hheld]

/-- Past the form and the registers, only the checks of the store are left. -/
theorem exec_of_registersHeld (hform : FormAllowed i s) (hheld : RegistersHeld i s) :
    exec i s = guardStore (storeAddress i s) s (storeState i s) := by
  rw [exec_of_formAllowed hform, guardRegs_of_held hheld]

/-- The checks of a store let it through, or answer one of three stops. -/
theorem guardStore_cases (ea : Addr) (s t : State) :
    (StoreAccepted ea s ∧ guardStore ea s t = .next t) ∨ guardStore ea s t = .fault .addressWrap ∨
      guardStore ea s t = .refused .storeIntoProgramText ∨
      guardStore ea s t = .fault .storageNotAdmitted := by
  by_cases hea : ea = 0xFFFFFFFF
  · exact .inr (.inl (guardStore_of_last hea))
  cases htext : touchesText s.launch ea.toNat 2 with
  | true => exact .inr (.inr (.inl (guardStore_of_touchesText hea htext)))
  | false =>
    cases hadmits : admits s.launch ea.toNat 2 with
    | false => exact .inr (.inr (.inr (guardStore_of_not_admitted hea htext hadmits)))
    | true =>
      rcases le_or_gt (2 ^ s.launch.pcw) (s.pc + 4) with hpc | hpc
      · exact .inr (.inl (guardStore_of_pc_top hadmits hpc))
      · have haccepted : StoreAccepted ea s := ⟨hea, htext, hadmits, hpc⟩
        exact .inl ⟨haccepted, guardStore_eq_next.2 ⟨haccepted, rfl⟩⟩

/-- Every answer an instruction can give (60_exceptions.md R78). -/
theorem exec_cases (i : Instr) (s : State) :
    (PassesChecks i s ∧ exec i s = .next (storeState i s)) ∨
    exec i s = .refused .invalidForm ∨
    (¬ RegistersHeld i s ∧ exec i s = .fault .unwrittenRegister) ∨
    exec i s = .fault .addressWrap ∨ exec i s = .refused .storeIntoProgramText ∨
    exec i s = .fault .storageNotAdmitted := by
  by_cases hform : FormAllowed i s
  · by_cases hheld : RegistersHeld i s
    · rw [exec_of_registersHeld hform hheld]
      rcases guardStore_cases (storeAddress i s) s (storeState i s) with ⟨haccepted, hnext⟩ | hstop
      · exact .inl ⟨⟨hform, hheld, haccepted⟩, hnext⟩
      · exact .inr (.inr (.inr hstop))
    · exact .inr (.inr (.inl ⟨hheld, exec_of_not_registersHeld hform hheld⟩))
  · exact .inr (.inl (exec_of_not_formAllowed hform))

/-- Every way a step can go: it runs the instruction it fetched, or it is refused for want of one. -/
theorem step_cases (s : State) :
    (∃ i, step s = exec i s) ∨ step s = .refused .notInScope ∨ step s = .refused .reservedBitSet ∨
      (s.pc % 4 ≠ 0 ∧ step s = .refused .misalignedFetch) := by
  by_cases hend : Final s
  · exact .inr (.inl (step_of_final hend))
  by_cases hpc : s.pc % 4 = 0
  · cases htext : fetchInText s with
    | false => exact .inr (.inl (step_of_outside_text hend hpc htext))
    | true =>
      cases hword : fetchWord s with
      | none => exact .inr (.inl (step_of_unwritten_word hend hpc htext hword))
      | some w =>
        have hf : Fetches s w := ⟨hend, hpc, htext, hword⟩
        cases hd : decode w with
        | ok i => exact .inl ⟨i, step_of_decode_ok hf hd⟩
        | error e =>
          cases e with
          | notInScope => exact .inr (.inl (step_of_decode_error hf hd))
          | reservedBitSet => exact .inr (.inr (.inl (step_of_decode_error hf hd)))
  · exact .inr (.inr (.inr ⟨hpc, step_of_misaligned hend hpc⟩))

end

/-- Settles O35: the form and the registers by the two lemmas about `exec`, the store's checks by those about
`guardStore`. -/
theorem checksAnswerInOrder : Obligations.ChecksAnswerInOrder := by
  intro i s
  refine ⟨exec_of_not_formAllowed, exec_of_not_registersHeld, fun hform hheld hea => ?_,
    fun hform hheld hea htext => ?_, fun hform hheld hea htext htext' hadmits => ?_,
    fun hform hheld _ hadmits hpc => ?_, fun hpass => ⟨_, exec_of_passesChecks hpass⟩⟩
  · rw [exec_of_registersHeld hform hheld, guardStore_of_last hea]
  · rw [exec_of_registersHeld hform hheld, guardStore_of_touchesText hea]
    rwa [touchesText_two, Bool.or_eq_true]
  · rw [exec_of_registersHeld hform hheld, guardStore_of_not_admitted hea ?_ hadmits]
    rw [touchesText_two, htext, htext', Bool.or_false]
  · rw [exec_of_registersHeld hform hheld, guardStore_of_pc_top hadmits hpc]

/-- Settles O36: the two forms are no valid ones and the policy does not let them run. -/
theorem invalidFormIsRefusedByDefault : Obligations.InvalidFormIsRefusedByDefault := by
  refine ⟨rfl, fun rs rb d s hpolicy => ⟨exec_of_not_formAllowed ?_, exec_of_not_formAllowed ?_⟩⟩ <;>
    simp [FormAllowed, Instr.wellFormed, hpolicy]

/-- The registers of an RA0 operand: RA, unless its field is 0 (10_state.md R15). -/
theorem mem_regsRA0 {r ra : Reg} : r ∈ regsRA0 ra ↔ ra ≠ 0 ∧ r = ra := by
  by_cases hra : ra = 0 <;> simp [regsRA0, hra]

/-- Settles O47. -/
theorem readOfARegisterWithoutAValueFaults : Obligations.ReadOfARegisterWithoutAValueFaults := by
  refine ⟨fun i s r hform hr hno => exec_of_not_registersHeld hform fun hheld => ?_,
    fun rs ra rb r d => ?_⟩
  · simp [hheld r hr] at hno
  · simp [registersRead, mem_regsRA0]

/-- Settles O28: the next state is `storeState`, and its store was accepted. -/
theorem pcAdvancesByFour : Obligations.PcAdvancesByFour := by
  intro i s t hexec
  obtain ⟨⟨-, -, haccepted⟩, rfl⟩ := exec_eq_next.1 hexec
  obtain ⟨-, -, -, hpc⟩ := haccepted
  exact ⟨storeState_pc i s, hpc⟩

end Sys2Proof.Machine

/-! ## What every step keeps, and runs -/
namespace Sys2Proof.Machine

section
variable {s t u : State}

/-- A step that answers a next state ran an instruction that passed its checks, at a word of the text. -/
theorem storeState_of_step (h : step s = .next t) :
    ∃ i, fetchInText s = true ∧ PassesChecks i s ∧ t = storeState i s := by
  obtain ⟨w, i, ⟨-, -, htext, -⟩, -, hexec⟩ := step_eq_next.1 h
  obtain ⟨hpass, hstate⟩ := exec_eq_next.1 hexec
  exact ⟨i, htext, hpass, hstate.symm⟩

theorem step_pc (h : step s = .next t) : t.pc = s.pc + 4 := by
  obtain ⟨i, -, -, rfl⟩ := storeState_of_step h
  exact storeState_pc i s

theorem step_launch (h : step s = .next t) : t.launch = s.launch := by
  obtain ⟨i, -, -, rfl⟩ := storeState_of_step h
  exact storeState_launch i s

theorem step_holdsValue (h : step s = .next t) (r : Reg) : t.holdsValue r = s.holdsValue r := by
  obtain ⟨i, -, ⟨-, hheld, -⟩, rfl⟩ := storeState_of_step h
  exact storeState_holdsValue hheld r

theorem step_reservations (h : step s = .next t) : (reservations t).Sublist (reservations s) := by
  obtain ⟨i, -, -, rfl⟩ := storeState_of_step h
  exact reservations_sublist_of_reservationsAfter (storeState_reservationTable i s)

/-- No step writes a byte of the program text: the store's two bytes were checked to lie outside
(20_memory.md R44). -/
theorem step_text (h : step s = .next t) {a : Nat} (ha : inText s.launch a = true) :
    t.mem.read a = s.mem.read a := by
  obtain ⟨i, -, ⟨-, -, haccepted⟩, rfl⟩ := storeState_of_step h
  obtain ⟨-, ⟨htext, htext'⟩, -, -⟩ := storeAccepted_iff.1 haccepted
  have hfirst : a ≠ (storeAddress i s).toNat := by
    rintro rfl
    simp [ha] at htext
  have hsecond : a ≠ (storeAddress i s).toNat + 1 := by
    rintro rfl
    simp [ha] at htext'
  rw [storeState_read, if_neg hfirst, if_neg hsecond]

/-- Memory stays in canonical form: the store's last byte is at an address that exists (20_memory.md R28). -/
theorem step_wf (h : step s = .next t) (hwf : s.mem.wf) : t.mem.wf := by
  obtain ⟨i, -, ⟨-, -, haccepted⟩, rfl⟩ := storeState_of_step h
  obtain ⟨hsecond, -, -, -⟩ := storeAccepted_iff.1 haccepted
  rw [storeState_mem]
  exact memWrite_wf _ hsecond hwf

theorem step_pc_lt (h : step s = .next t) : t.pc < 2 ^ t.launch.pcw := by
  obtain ⟨i, -, ⟨-, -, haccepted⟩, -⟩ := storeState_of_step h
  obtain ⟨-, -, -, hpc⟩ := storeAccepted_iff.1 haccepted
  rwa [step_pc h, step_launch h]

/-- Settles O42: one fact about a step for each part of the invariant. -/
theorem stepKeepsTheMachineInvariant : Obligations.StepKeepsTheMachineInvariant := by
  rintro s t ⟨hwf, halign, -, hnodup⟩ hstep
  refine ⟨step_wf hstep hwf, ?_, step_pc_lt hstep, hnodup.sublist (step_reservations hstep)⟩
  rw [step_pc hstep]
  omega

theorem run_zero : Host.Core.run core 0 s = .next t ↔ s = t :=
  iff_of_eq (Host.Outcome.next.injEq s t)

/-- A run of one step more is a step and the run from where it leads. -/
theorem run_succ {k : Nat} : Host.Core.run core (k + 1) s = .next u ↔
    ∃ t, step s = .next t ∧ Host.Core.run core k t = .next u := by
  simp only [Host.Core.run, core]
  cases step s <;> simp

/-- What every step keeps, every run keeps. -/
theorem run_keeps {P : State → Prop} (hstep : ∀ s t, P s → step s = .next t → P t) {k : Nat}
    (hrun : Host.Core.run core k s = .next t) (hs : P s) : P t := by
  induction k generalizing s with
  | zero => exact run_zero.1 hrun ▸ hs
  | succ k ih =>
    obtain ⟨s', hs', hrun'⟩ := run_succ.1 hrun
    exact ih hrun' (hstep s s' hs hs')

end

/-- The launch parameters and the text are those of `s` (20_memory.md R44, 10_state.md R24). -/
def SameText (s t : State) : Prop :=
  t.launch = s.launch ∧ ∀ a, inText s.launch a = true → t.mem.read a = s.mem.read a

theorem step_sameText {s t u : State} (hst : SameText s t) (hstep : step t = .next u) :
    SameText s u := by
  obtain ⟨hlaunch, htext⟩ := hst
  refine ⟨(step_launch hstep).trans hlaunch, fun a ha => ?_⟩
  rw [← htext a ha]
  exact step_text hstep (by rwa [hlaunch])

/-- Settles O43: every step keeps `SameText`, so every run does. -/
theorem programTextIsFixedForTheRun : Obligations.ProgramTextIsFixedForTheRun := fun _ s _ hrun =>
  run_keeps (P := SameText s) (fun _ _ => step_sameText) hrun ⟨rfl, fun _ _ => rfl⟩

/-- Settles O40: no step creates a reservation, so no run does. -/
theorem runsCreateNoReservation : Obligations.RunsCreateNoReservation := fun _ s _ hrun =>
  run_keeps (P := fun u => (reservations u).Sublist (reservations s))
    (fun _ _ hsub hstep => (step_reservations hstep).trans hsub) hrun (List.Sublist.refl _)

/-- Settles O44, by induction on the number of steps. -/
theorem runOfKStepsAdvancesPcByFourK : Obligations.RunOfKStepsAdvancesPcByFourK := by
  intro k
  induction k with
  | zero => exact fun s t hrun => congrArg State.pc (run_zero.1 hrun).symm
  | succ k ih =>
    intro s u hrun
    obtain ⟨t, hstep, hrun'⟩ := run_succ.1 hrun
    rw [ih t u hrun', step_pc hstep]
    omega

/-- Settles O49: the register written back was read, so it held a value; and where all hold values, neither
the fetch nor the instruction answers UnwrittenRegister. -/
theorem registersThatHoldValuesKeepThem : Obligations.RegistersThatHoldValuesKeepThem := by
  refine ⟨by decide, holdsValue_writeReg, fun s t => step_holdsValue, fun s hall => ?_⟩
  have hexec : ∀ i, exec i s ≠ .fault .unwrittenRegister := fun i => by
    have hheld : RegistersHeld i s := fun r _ => hall r
    rcases exec_cases i s with ⟨-, h⟩ | h | ⟨hno, -⟩ | h | h | h
    case inr.inr.inl => exact absurd hheld hno
    all_goals simp [h]
  rcases step_cases s with ⟨i, h⟩ | h | h | ⟨-, h⟩
  case inl => exact h ▸ hexec i
  all_goals simp [h]

/-- Settles O41. -/
theorem resetMeetsTheMachineInvariant : Obligations.ResetMeetsTheMachineInvariant := by
  unfold Obligations.ResetMeetsTheMachineInvariant MachineInv
  decide

/-- At reset every half-word access whose two bytes exist is admitted, the text is empty and pc can advance
(logs 5, 13). -/
theorem storeAccepted_reset {ea : Addr} (h : ea ≠ 0xFFFFFFFF) : StoreAccepted ea State.reset := by
  have hempty : ∀ a, inText State.reset.launch a = false := fun a => by
    rw [Bool.eq_false_iff, Ne, inText_eq_true]
    exact fun ⟨hlo, hhi⟩ => Nat.lt_irrefl _ (Nat.lt_of_lt_of_le hhi hlo)
  have hsecond := (addr_ne_last_iff ea).1 h
  refine storeAccepted_iff.2 ⟨hsecond, ⟨hempty _, hempty _⟩, ?_, by decide⟩
  rw [admits, touchesText_two, hempty, hempty]
  simp [State.reset, Launch.atReset, AccessRange.covers]
  omega

/-- Settles O46: each field of the reset state, and the access range admitted there. -/
theorem resetStateIsAsLogged : Obligations.ResetStateIsAsLogged :=
  ⟨by decide, rfl, read_nil, rfl, rfl, rfl, fun _ => storeAccepted_reset, rfl⟩

end Sys2Proof.Machine

/-! ## The word fetched, and runs on a loaded text -/
namespace Sys2Proof.Machine

section
variable {s t u : State}

theorem fetchInText_eq_true : fetchInText s = true ↔ s.launch.textBase ≤ s.pc ∧
    s.pc + 4 ≤ textStop s.launch ∧ (s.pc - s.launch.textBase) % 4 = 0 := by
  simp [fetchInText, and_assoc]

/-- Where the four bytes at pc hold values, the fetched word is made of them (20_memory.md R33). -/
theorem fetchWord_of_bytes {b0 b1 b2 b3 : Byte} (h0 : s.mem.read s.pc = some b0)
    (h1 : s.mem.read (s.pc + 1) = some b1) (h2 : s.mem.read (s.pc + 2) = some b2)
    (h3 : s.mem.read (s.pc + 3) = some b3) : fetchWord s = some (wordOfBytes b0 b1 b2 b3) := by
  simp [fetchWord, h0, h1, h2, h3]

/-- The first byte of a word holds its primary opcode (20_memory.md R33). -/
theorem opcode_wordOfBytes (b0 b1 b2 b3 : Byte) :
    (wordOfBytes b0 b1 b2 b3).extractLsb 31 26 = b0.extractLsb 7 2 := by
  apply BitVec.eq_of_getLsbD_eq
  intro k hk
  simp [BitVec.extractLsb, getLsbD_wordOfBytes, show ¬ 26 + k < 8 by omega,
    show ¬ 26 + k < 16 by omega, show ¬ 26 + k < 24 by omega, show 26 + k - 24 = 2 + k by omega]

/-- Settles O8. -/
theorem fetchIsBigEndian : Obligations.FetchIsBigEndian := fun _ b0 b1 b2 b3 h0 h1 h2 h3 =>
  ⟨wordOfBytes b0 b1 b2 b3, fetchWord_of_bytes h0 h1 h2 h3, rfl, opcode_wordOfBytes b0 b1 b2 b3⟩

/-- A state on its text, short of EndPc, is at a word of the text: text and pc are aligned, so a whole word is
left (70_reset_and_hazards.md R90). -/
theorem fetchInText_of_onText (h : OnText s) (hend : ¬ Final s) : fetchInText s = true := by
  obtain ⟨hpc, hbase, hstop, hlo, hhi, -⟩ := h
  have hne : s.pc ≠ textStop s.launch := fun heq => hend (heq.trans hstop.symm)
  rw [fetchInText_eq_true]
  rw [textStop] at hhi hne ⊢
  omega

/-- On its text, short of EndPc, a state has a word to fetch. -/
theorem exists_fetches_of_onText (h : OnText s) (hend : ¬ Final s) : ∃ w, Fetches s w := by
  have htext := fetchInText_of_onText h hend
  obtain ⟨hlo, hhi, -⟩ := fetchInText_eq_true.1 htext
  obtain ⟨hpc, -, -, -, -, hheld⟩ := h
  have hbyte : ∀ k, k < 4 → ∃ b, s.mem.read (s.pc + k) = some b := fun k hk =>
    Option.isSome_iff_exists.1 (hheld _ (inText_eq_true.2 ⟨by omega, by omega⟩))
  obtain ⟨b0, h0⟩ := hbyte 0 (by omega)
  obtain ⟨b1, h1⟩ := hbyte 1 (by omega)
  obtain ⟨b2, h2⟩ := hbyte 2 (by omega)
  obtain ⟨b3, h3⟩ := hbyte 3 (by omega)
  exact ⟨_, hend, hpc, htext, fetchWord_of_bytes h0 h1 h2 h3⟩

/-- Every step keeps `OnText`: it was at a whole word of the text, and the text stays. -/
theorem step_onText (h : OnText s) (hstep : step s = .next t) : OnText t := by
  obtain ⟨-, htext, -⟩ := storeState_of_step hstep
  obtain ⟨-, hroom, -⟩ := fetchInText_eq_true.1 htext
  obtain ⟨hpc, hbase, hstop, hlo, -, hheld⟩ := h
  have hlaunch := step_launch hstep
  unfold OnText
  rw [step_pc hstep, hlaunch]
  refine ⟨by omega, hbase, hstop, by omega, hroom, fun a ha => ?_⟩
  rw [hlaunch] at ha
  rw [step_text hstep ha]
  exact hheld a ha

/-- At an aligned pc no step is refused as MisalignedFetch, which no instruction answers. -/
theorem step_ne_misalignedFetch (hpc : s.pc % 4 = 0) : step s ≠ .refused .misalignedFetch := by
  have hexec : ∀ i, exec i s ≠ .refused .misalignedFetch := fun i => by
    rcases exec_cases i s with ⟨-, h⟩ | h | ⟨-, h⟩ | h | h | h <;> simp [h]
  rcases step_cases s with ⟨i, h⟩ | h | h | ⟨hno, -⟩
  · exact h ▸ hexec i
  · simp [h]
  · simp [h]
  · exact absurd hpc hno

/-- Settles O45. -/
theorem straightLineRunStaysOnItsText : Obligations.StraightLineRunStaysOnItsText := by
  intro s h
  have ⟨hpc, _⟩ := h
  exact ⟨fun _ => step_onText h, step_ne_misalignedFetch hpc, exists_fetches_of_onText h⟩

theorem runToEnd_of_final (k : Nat) (h : Final s) : runToEnd k s = .next s := by
  cases k with
  | zero => rfl
  | succ k => exact if_pos h

/-- Short of EndPc a run to the end is a step and the run to the end from where it leads. -/
theorem runToEnd_succ {k : Nat} (hend : ¬ Final s) :
    runToEnd (k + 1) s = .next u ↔ ∃ t, step s = .next t ∧ runToEnd k t = .next u := by
  have hend : s.pc ≠ s.launch.endPc := hend
  simp only [runToEnd, if_neg hend]
  cases step s <;> simp

end

/-- The state a run to the end answers is one a plain run reaches within the bound. -/
theorem run_of_runToEnd {k : Nat} {s u : State} (h : runToEnd k s = .next u) :
    ∃ j, j ≤ k ∧ Host.Core.run core j s = .next u := by
  induction k generalizing s with
  | zero => exact ⟨0, Nat.le_refl 0, h⟩
  | succ k ih =>
    by_cases hend : Final s
    · rw [runToEnd_of_final _ hend] at h
      exact ⟨0, Nat.zero_le _, h⟩
    · obtain ⟨t, hstep, hrun⟩ := (runToEnd_succ hend).1 h
      obtain ⟨j, hj, hrun'⟩ := ih hrun
      exact ⟨j + 1, Nat.succ_le_succ hj, run_succ.2 ⟨t, hstep, hrun'⟩⟩

/-- With a bound that reaches EndPc, a run to the end from a state on its text stops at EndPc: pc, which never
passes EndPc, is four nearer to it after each step. -/
theorem final_of_runToEnd {k : Nat} {s u : State} (h : OnText s)
    (hbound : s.launch.endPc ≤ s.pc + 4 * k) (hrun : runToEnd k s = .next u) : Final u := by
  induction k generalizing s with
  | zero =>
    obtain ⟨-, -, hstop, -, hhi, -⟩ := h
    have hsu : s = u := run_zero.1 hrun
    subst hsu
    exact Nat.le_antisymm (hstop ▸ hhi) hbound
  | succ k ih =>
    by_cases hend : Final s
    · rw [runToEnd_of_final _ hend, Host.Outcome.next.injEq] at hrun
      exact hrun ▸ hend
    · obtain ⟨t, hstep, hrun'⟩ := (runToEnd_succ hend).1 hrun
      refine ih (step_onText h hstep) ?_ hrun'
      rw [step_launch hstep, step_pc hstep]
      omega

/-- Settles O48. -/
theorem runToEndIsFinalAtEndPc : Obligations.RunToEndIsFinalAtEndPc :=
  ⟨fun k _ => runToEnd_of_final k, fun _ _ _ => run_of_runToEnd, fun _ _ _ => final_of_runToEnd⟩

end Sys2Proof.Machine

/-! ## A loaded program -/
namespace Sys2Proof.Machine

section
variable (m : Memory) (base : Nat) (ws : List Word)

/-- Loading words changes no byte outside their range. -/
theorem read_writeWords_outside {x : Nat} (hx : x < base ∨ base + 4 * ws.length ≤ x) :
    (writeWords m base ws).read x = m.read x := by
  induction ws generalizing m base with
  | nil => rfl
  | cons w ws ih =>
    rw [List.length_cons] at hx
    rw [writeWords, ih _ _ (by omega)]
    exact read_memWrite_outside (n := 4) m w (by omega)

/-- Byte `j` of word `k` of the words loaded stands at `base + 4k + j` (20_memory.md R33). -/
theorem read_writeWords_inside {k j : Nat} (hk : k < ws.length) (hj : j < 4) :
    (writeWords m base ws).read (base + 4 * k + j) = some (byteOfWord ws[k] j) := by
  induction ws generalizing m base k with
  | nil => exact absurd hk (Nat.not_lt_zero k)
  | cons w ws ih =>
    rw [writeWords]
    cases k with
    | zero =>
      rw [Nat.mul_zero, Nat.add_zero, read_writeWords_outside _ _ _ (by omega)]
      exact read_memWrite_inside (n := 4) m base w hj
    | succ k =>
      have hword : base + 4 * (k + 1) + j = base + 4 + 4 * k + j := by omega
      rw [hword, ih _ _ (Nat.lt_of_succ_lt_succ hk), List.getElem_cons_succ]

/-- Every byte of the range loaded holds a value. -/
theorem read_writeWords_isSome {x : Nat} (hlo : base ≤ x) (hhi : x < base + 4 * ws.length) :
    ((writeWords m base ws).read x).isSome = true := by
  have hx : x = base + 4 * ((x - base) / 4) + (x - base) % 4 := by omega
  rw [hx, read_writeWords_inside m base ws (by omega) (by omega)]
  rfl

end

section
variable {s : State} {m : Memory} {base : Nat} {ws : List Word}

/-- Where pc is at word `k` of words loaded, that word is fetched. -/
theorem fetchWord_of_loaded {k : Nat} (hmem : s.mem = writeWords m base ws)
    (hpc : s.pc = base + 4 * k) (hk : k < ws.length) : fetchWord s = some ws[k] := by
  have hbyte : ∀ j, j < 4 → s.mem.read (s.pc + j) = some (byteOfWord ws[k] j) := fun j hj => by
    rw [hmem, hpc]
    exact read_writeWords_inside m base ws hk hj
  rw [fetchWord_of_bytes (hbyte 0 (by omega)) (hbyte 1 (by omega)) (hbyte 2 (by omega))
    (hbyte 3 (by omega)), wordOfBytes_byteOfWord]

end

/-- Settles O12. -/
theorem loadedWordsStandInOrder : Obligations.LoadedWordsStandInOrder := fun s base ws =>
  ⟨fun _ hk => fetchWord_of_loaded (m := s.mem) rfl rfl hk,
    fun _ => read_writeWords_outside s.mem base ws⟩

/-- A whole word is the table word of its number. -/
theorem tableWord_toNat (w : Word) : tableWord 32 w.toNat = w := by
  rw [tableWord, Nat.mod_eq_of_lt w.isLt, BitVec.ofNat_toNat, BitVec.setWidth_eq]

/-- A placed word is a loaded program of one word (log 5). -/
theorem withFetchWord_toNat (s : State) (w : Word) :
    s.withFetchWord 32 w.toNat = loadProgram s.pc [w] s := by
  rw [State.withFetchWord, tableWord_toNat]

/-- The first word of a program loaded at an aligned base is the next one fetched. -/
theorem fetches_loadProgram {s : State} {base : Nat} {w : Word} {ws : List Word}
    (hbase : base % 4 = 0) : Fetches (loadProgram base (w :: ws) s) w := by
  refine ⟨?_, hbase, ?_, fetchWord_of_loaded (ws := w :: ws) (k := 0) rfl rfl (Nat.succ_pos _)⟩
  · simp [Final]
  · simp [fetchInText_eq_true, textStop]

/-- The decoder reads a table word of 32 bits as the word itself. -/
theorem decodeTableWord_toNat {w : Word} {i : Instr} (h : decode w = .ok i) :
    decodeTableWord 32 w.toNat = some i := by
  simp [decodeTableWord, tableWord_toNat, decodeBytes, wordOfBytes_byteOfWord, h, Except.toOption]

/-- Settles O11: a placed word is a program of one word. -/
theorem placedWordIsTheNextInstruction : Obligations.PlacedWordIsTheNextInstruction := by
  intro s w hpc
  rw [withFetchWord_toNat]
  have hf : Fetches (loadProgram s.pc [w] s) w := fetches_loadProgram hpc
  exact ⟨hf, fun i hd => ⟨decodeTableWord_toNat hd, step_of_decode_ok hf hd⟩,
    fun _ => read_writeWords_outside s.mem s.pc [w], rfl, rfl⟩

/-- Where all registers hold values, every read of a run does (10_state.md R26). -/
theorem runReadsHeldRegisters_of_all_held {s : State} (h : ∀ r, s.holdsValue r = true) :
    RunReadsHeldRegisters s := fun _ _ _ _ hrun _ _ r _ =>
  run_keeps (P := fun u => ∀ q, u.holdsValue q = true)
    (fun _ _ hall hstep q => (step_holdsValue hstep q).trans (hall q)) hrun h r

/-- The text of a loaded program is the range it is loaded to. -/
theorem inText_loadProgram {s : State} {base a : Nat} {ws : List Word} :
    inText (loadProgram base ws s).launch a = true ↔ base ≤ a ∧ a < base + 4 * ws.length :=
  inText_eq_true

theorem textHeld_loadProgram (s : State) (base : Nat) (ws : List Word) :
    TextHeld (loadProgram base ws s) := fun a ha => by
  obtain ⟨hlo, hhi⟩ := inText_loadProgram.1 ha
  exact read_writeWords_isSome s.mem base ws hlo hhi

/-- Settles O13: the premises of R90 one by one. -/
theorem loadedProgramIsLaunched : Obligations.LoadedProgramIsLaunched := by
  intro s base ws hwf hnodup hheld hbase hne hfits hpcw
  have hlen : 0 < ws.length := List.length_pos_iff.2 hne
  have htext := textHeld_loadProgram s base ws
  have hinv : MachineInv (loadProgram base ws s) := ⟨writeWords_wf hfits hwf, hbase, hpcw, hnodup⟩
  have hend : (base + 4 * ws.length) % 4 = 0 := by omega
  refine ⟨⟨hinv, ?_, ⟨hbase, hfits, htext⟩, ?_, ?_, hend⟩,
    hbase, hbase, rfl, Nat.le_refl base, Nat.le_add_right _ _, htext⟩
  · rw [loadProgram_pc, inText_loadProgram]
    omega
  · exact runReadsHeldRegisters_of_all_held hheld
  · exact fun a n k hadmits hk => inText_of_not_touchesText (not_touchesText_of_admits hadmits) hk

end Sys2Proof.Machine

/-! ## The reservation step and the whole effect of a store -/
namespace Sys2Proof.Machine

/-- An enabled table that does not act has no reservation (10_state.md R23). -/
theorem active_eq_nil_of_not_acts {b : ReservationTable} (hon : b.enabled = true)
    (h : tableActs b ≠ true) : b.active = [] := by
  simpa [tableActs, hasActiveReservers, hon] using h

/-- The reservations of an enabled table after the reservation step: those off EA's granule, and, where the
free choice says so, off the granule of EA + 1 (20_memory.md R42, D11, D12). -/
theorem exists_reservationsAfter_enabled {ea : Addr} {s : State} {b : ReservationTable}
    (hb : s.reservationTable = some b) (hon : b.enabled = true) :
    ∃ b', reservationsAfter ea s = some b' ∧ b'.enabled = true ∧
      ∀ r, r ∈ b'.active ↔ r ∈ b.active ∧ r.granule ≠ granuleOf s.launch ea.toNat ∧
        ¬ (removesSecond ea s = true ∧ r.granule = granuleOf s.launch (ea.toNat + 1)) := by
  by_cases hacts : tableActs b = true
  · refine ⟨invalidateForWrite s.launch (removesSecond ea s) ea b, ?_, ?_, fun r =>
      mem_invalidateForWrite⟩
    · rw [reservationsAfter_some hb, if_pos hacts]
    · rw [invalidateForWrite_enabled, hon]
  · refine ⟨b, ?_, hon, fun r => ?_⟩
    · rw [reservationsAfter_some hb, if_neg hacts]
    · simp [active_eq_nil_of_not_acts hon hacts]

/-- A disabled table stays as it is (20_memory.md R42). -/
theorem reservationsAfter_disabled {ea : Addr} {s : State} {b : ReservationTable}
    (hb : s.reservationTable = some b) (hoff : b.enabled = false) :
    reservationsAfter ea s = some b := by
  rw [reservationsAfter_some hb]
  simp [tableActs, hoff]

/-- Any state with the table `reservationsAfter` leaves shows an effect that 20_memory.md R42 allows. -/
theorem reservationEffect_of_reservationsAfter {ea : Addr} {s t : State}
    (ht : t.reservationTable = reservationsAfter ea s) : ReservationEffect ea s t := by
  refine ⟨fun hnone => ht.trans (reservationsAfter_none hnone), fun b hb => ?_⟩
  have hsub := reservations_sublist_of_reservationsAfter ht
  cases hon : b.enabled with
  | false =>
    exact ⟨b, ht.trans (reservationsAfter_disabled hb hon), hon, List.Sublist.refl _, fun _ => rfl, nofun⟩
  | true =>
    obtain ⟨b', hb', hon', hactive⟩ := exists_reservationsAfter_enabled (ea := ea) hb hon
    rw [reservations, reservations, ht, hb, hb'] at hsub
    exact ⟨b', ht.trans hb', hon', hsub, nofun, fun _ => ⟨_, hactive⟩⟩

/-- Settles O38. -/
theorem storeEndsReservationsOnItsGranule : Obligations.StoreEndsReservationsOnItsGranule := by
  intro i s t hexec
  obtain ⟨-, rfl⟩ := exec_eq_next.1 hexec
  exact reservationEffect_of_reservationsAfter (storeState_reservationTable i s)

/-- Settles O39: a store in one granule has no second granule to remove, and uses no choice. -/
theorem storeInOneGranuleHasOneOutcome : Obligations.StoreInOneGranuleHasOneOutcome := by
  intro i s t b hexec hb hon hone
  obtain ⟨-, rfl⟩ := exec_eq_next.1 hexec
  have hcross : crossesGranule s.launch (storeAddress i s) = false := by simp [crossesGranule, hone]
  obtain ⟨b', hb', hon', hactive⟩ := exists_reservationsAfter_enabled (ea := storeAddress i s) hb hon
  refine ⟨?_, b', (storeState_reservationTable i s).trans hb', hon', fun r => ?_⟩
  · simp [freeCountAfter, hcross]
  · simp [hactive r, removesSecond, hcross]

/-- All that a store does beside a register update, shown by the state an instruction leaves. -/
theorem storeEffect_storeState (i : Instr) (s : State) :
    StoreEffect (storeAddress i s) ((s.readReg (sourceReg i)).setWidth 16) s (storeState i s) := by
  have hread := read_memWrite_two s.mem (storeAddress i s).toNat (halfwordOf (sourceReg i) s)
  rw [← storeState_mem] at hread
  refine ⟨?_, ?_, fun a h0 h1 => ?_,
    reservationEffect_of_reservationsAfter (storeState_reservationTable i s), storeState_pc i s,
    storeState_xer i s, storeState_launch i s⟩
  · rw [hread, if_pos rfl, halfwordOf]
  · rw [hread, if_neg (Nat.succ_ne_self _), if_pos rfl, halfwordOf]
  · rw [hread, if_neg h0, if_neg h1]

/-- An instruction that passes its checks: the store's effect, the register it updates, and which registers
hold values. -/
theorem exec_storeEffect {i : Instr} {s : State} (hpass : PassesChecks i s) :
    ∃ t, exec i s = .next t ∧
      StoreEffect (storeAddress i s) ((s.readReg (sourceReg i)).setWidth 16) s t ∧
      ∀ r, t.readReg r = (if updatedReg i = some r then (storeAddress i s).setWidth 64 else s.readReg r) ∧
        t.holdsValue r = s.holdsValue r := by
  have ⟨_, hheld, _⟩ := hpass
  exact ⟨storeState i s, exec_of_passesChecks hpass, storeEffect_storeState i s,
    fun r => ⟨storeState_readReg i s r, storeState_holdsValue hheld r⟩⟩

/-- `sthu` and `sthux` are allowed where RA is not 0 or the policy is `snapshot` (30_encoding.md R57). -/
theorem formAllowed_update {i : Instr} {ra : Reg} {s : State} (hra : updatedReg i = some ra)
    (h : ra ≠ 0 ∨ s.launch.invalidFormPolicy = .snapshot) : FormAllowed i s := by
  cases i with
  | sth rs d ra => cases hra
  | sthx rs ra rb => cases hra
  | sthu rs d ra => cases hra; exact h.imp_left (wellFormed_sthu rs _ d).2
  | sthux rs ra rb => cases hra; exact h.imp_left (wellFormed_sthux rs _ rb).2

/-- An update form: `exec_storeEffect` with the updated register named. -/
theorem exec_update_storeEffect {i : Instr} {ra : Reg} {s : State} (hra : updatedReg i = some ra)
    (hform : ra ≠ 0 ∨ s.launch.invalidFormPolicy = .snapshot) (hheld : RegistersHeld i s)
    (haccepted : StoreAccepted (storeAddress i s) s) :
    ∃ t, exec i s = .next t ∧
      StoreEffect (storeAddress i s) ((s.readReg (sourceReg i)).setWidth 16) s t ∧
      ∀ r, t.readReg r = (if r = ra then (storeAddress i s).setWidth 64 else s.readReg r) ∧
        t.holdsValue r = s.holdsValue r := by
  obtain ⟨t, hexec, heffect, hregs⟩ :=
    exec_storeEffect ⟨formAllowed_update hra hform, hheld, haccepted⟩
  refine ⟨t, hexec, heffect, fun r => ?_⟩
  simpa [hra, eq_comm (a := ra)] using hregs r

/-- Settles O14. -/
theorem sthStoresTheLowHalf : Obligations.SthStoresTheLowHalf := fun _ _ _ _ =>
  ⟨rfl, fun hheld haccepted => exec_storeEffect ⟨.inl rfl, hheld, haccepted⟩⟩

/-- Settles O15. -/
theorem sthuStoresAndUpdates : Obligations.SthuStoresAndUpdates := fun _ _ _ _ =>
  ⟨rfl, exec_update_storeEffect rfl⟩

/-- Settles O16. -/
theorem sthuxStoresAndUpdates : Obligations.SthuxStoresAndUpdates := fun _ _ _ _ =>
  ⟨rfl, exec_update_storeEffect rfl⟩

/-- Settles O17. -/
theorem sthxStoresTheLowHalf : Obligations.SthxStoresTheLowHalf := fun _ _ _ _ =>
  ⟨rfl, fun hheld haccepted => exec_storeEffect ⟨.inl rfl, hheld, haccepted⟩⟩

/-- Under `snapshot` an update form on r0 runs as any other (40_store_halfword.md R71). -/
theorem exec_update_r0 {i : Instr} {ea : Addr} {s : State} (h0 : updatedReg i = some 0)
    (hea : ea = storeAddress i s) (hpolicy : s.launch.invalidFormPolicy = .snapshot)
    (hheld : RegistersHeld i s) (haccepted : StoreAccepted ea s) :
    ∃ t, exec i s = .next t ∧ StoreEffect ea ((s.readReg (sourceReg i)).setWidth 16) s t ∧
      t.readReg 0 = ea.setWidth 64 ∧ ∀ r, r ≠ 0 → t.readReg r = s.readReg r := by
  subst hea
  obtain ⟨t, hexec, heffect, hregs⟩ := exec_update_storeEffect h0 (.inr hpolicy) hheld haccepted
  refine ⟨t, hexec, heffect, ?_, fun r hr => ?_⟩
  · rw [(hregs 0).1, if_pos rfl]
  · rw [(hregs r).1, if_neg hr]

/-- Settles O37. -/
theorem snapshotPolicyRunsInvalidFormsOnR0 : Obligations.SnapshotPolicyRunsInvalidFormsOnR0 :=
  fun _ _ _ _ hpolicy =>
    ⟨fun _ hea => exec_update_r0 rfl hea hpolicy, fun _ hea => exec_update_r0 rfl hea hpolicy⟩

end Sys2Proof.Machine

/-! ## Bytes read after one store and after two -/
namespace Sys2Proof.Machine

/-- A one-byte read is the byte (20_memory.md R34). -/
theorem memRead_one {m : Memory} {a : Nat} {b : Byte} (h : m.read a = some b) :
    m.memRead a 1 = some b := by
  simp [Memory.memRead, Memory.readNat, h]

/-- A two-byte read is its bytes, most significant first (20_memory.md R34). -/
theorem memRead_two {m : Memory} {a : Nat} {b0 b1 : Byte} (h0 : m.read a = some b0)
    (h1 : m.read (a + 1) = some b1) : m.memRead a 2 = some (b0 ++ b1) := by
  have hval : BitVec.ofNat 16 (256 * b0.toNat + b1.toNat) = b0 ++ b1 := by
    apply BitVec.eq_of_toNat_eq
    rw [BitVec.toNat_append, ← Nat.shiftLeft_add_eq_or_of_lt b1.isLt, Nat.shiftLeft_eq, BitVec.toNat_ofNat]
    omega
  simp [Memory.memRead, Memory.readNat, h0, h1, hval]

/-- A half word is its two bytes. -/
theorem halfword_of_bytes (v : Half) : v.extractLsb 15 8 ++ v.extractLsb 7 0 = v :=
  BitVec.extractLsb'_append_extractLsb'_eq_extractLsb' (x := v) (start₂ := 8) (start₁ := 0) rfl |>.trans
    BitVec.extractLsb'_eq_self

/-- The high byte of a half word stored (20_memory.md R30). -/
theorem read_memWrite_two_first (m : Memory) (a : Nat) (v : Half) :
    (m.memWrite a 2 v).read a = some (v.extractLsb 15 8) := by
  rw [read_memWrite_two, if_pos rfl]

/-- The low byte of a half word stored (20_memory.md R30). -/
theorem read_memWrite_two_second (m : Memory) (a : Nat) (v : Half) :
    (m.memWrite a 2 v).read (a + 1) = some (v.extractLsb 7 0) := by
  rw [read_memWrite_two, if_neg (Nat.succ_ne_self a), if_pos rfl]

/-- Settles O32: each read is put together from the bytes the later store left, else from the earlier's. -/
theorem mixedWidthReadsAfterAStore : Obligations.MixedWidthReadsAfterAStore := by
  intro m a v u b
  refine ⟨memRead_one (read_memWrite_two_first m a v), memRead_one (read_memWrite_two_second m a v),
    ?_, fun hb => ?_, ?_, ?_⟩
  · rw [memRead_two (read_memWrite_two_first m a v) (read_memWrite_two_second m a v), halfword_of_bytes]
  · refine memRead_two (read_memWrite_two_second m a v) ?_
    rw [read_memWrite_two, if_neg (by omega), if_neg (by omega), hb]
  · refine memRead_two ?_ (read_memWrite_two_first _ _ u)
    rw [read_memWrite_two, if_neg (by omega), if_neg (by omega), read_memWrite_two_first]
  · refine memRead_two (read_memWrite_two_second _ a v) ?_
    rw [read_memWrite_two, if_neg (by omega), if_neg (by omega), read_memWrite_two_second]

/-- Settles O33: the later store leaves its own bytes, and every other byte as the earlier one left it. -/
theorem laterStoreOverwritesEarlier : Obligations.LaterStoreOverwritesEarlier := by
  intro i j s t u hi hj
  obtain ⟨hhigh, hlow⟩ := storedAt_of_exec hi
  obtain ⟨hhigh', hlow'⟩ := storedAt_of_exec hj
  obtain ⟨-, rfl⟩ := exec_eq_next.1 hj
  refine ⟨hhigh', hlow', fun h0 h1 => ?_, fun h0 h1 => ?_⟩
  · rw [storeState_read, if_neg h0, if_neg h1, hhigh]
  · rw [storeState_read, if_neg h0, if_neg (by omega), hlow]

end Sys2Proof.Machine

/-! ## The address as a sum, and what has no influence -/
namespace Sys2Proof.Machine

/-- The address is the sum of the low 32 bits of base and offset (40_store_halfword.md R65). -/
theorem effectiveAddress_eq_add (base offset : Dword) :
    effectiveAddress base offset = base.setWidth 32 + offset.setWidth 32 :=
  BitVec.setWidth_add base offset (by decide)

/-- The low 32 bits of a displacement extended to 64 bits are the displacement extended to 32. -/
theorem displacement_setWidth (d : BitVec 16) : (displacement d).setWidth 32 = d.signExtend 32 := by
  ext k hk
  simp [displacement, BitVec.getElem_signExtend, show k < 64 by omega]

/-- As a number, the address of a D form is base + d modulo 2^32, d signed (30_encoding.md R52). -/
theorem effectiveAddress_displacement_toNat (base : Dword) (d : BitVec 16) :
    ((effectiveAddress base (displacement d)).toNat : Int) = ((base.toNat : Int) + d.toInt) % 2 ^ 32 := by
  rw [effectiveAddress, displacement, BitVec.signExtend, BitVec.toNat_setWidth, BitVec.toNat_add,
    BitVec.toNat_ofInt]
  omega

/-- Settles O19. -/
theorem displacementIsASignedByteCount : Obligations.DisplacementIsASignedByteCount :=
  fun _ _ d _ => ⟨BitVec.le_toInt d, Int.le_of_lt_add_one BitVec.toInt_lt,
    effectiveAddress_displacement_toNat _ d, effectiveAddress_displacement_toNat _ d⟩

/-- The base operand of an RA0 field depends on RA only where the field is not 0
(40_store_halfword.md R64). -/
theorem baseRA0_setWidth_congr {ra : Reg} {s s' : State}
    (h : ra ≠ 0 → (s.readReg ra).setWidth 32 = (s'.readReg ra).setWidth 32) :
    (baseRA0 ra s).setWidth 32 = (baseRA0 ra s').setWidth 32 := by
  by_cases hra : ra = 0
  · subst hra
    rw [baseRA0_zero, baseRA0_zero]
  · rw [baseRA0_of_ne_zero hra, baseRA0_of_ne_zero hra, h hra]

/-- The address depends on the low halves of the registers `addressReads` names, and on nothing else
(40_store_halfword.md R65). -/
theorem storeAddress_congr {i : Instr} {s s' : State}
    (h : ∀ r, addressReads i r = true → (s.readReg r).setWidth 32 = (s'.readReg r).setWidth 32) :
    storeAddress i s = storeAddress i s' := by
  cases i with
  | sth rs d ra =>
    have hbase := baseRA0_setWidth_congr fun hra => h ra (by simp [addressReads, hra])
    rw [storeAddress, storeAddress, addressSth, addressSth, effectiveAddress_eq_add,
      effectiveAddress_eq_add, hbase]
  | sthu rs d ra =>
    have hbase := h ra (by simp [addressReads])
    rw [storeAddress_sthu, storeAddress_sthu, effectiveAddress_eq_add, effectiveAddress_eq_add, hbase]
  | sthux rs ra rb =>
    have hbase := h ra (by simp [addressReads])
    have hindex := h rb (by simp [addressReads])
    rw [storeAddress_sthux, storeAddress_sthux, effectiveAddress_eq_add, effectiveAddress_eq_add,
      hbase, hindex]
  | sthx rs ra rb =>
    have hbase := baseRA0_setWidth_congr fun hra => h ra (by simp [addressReads, hra])
    have hindex := h rb (by simp [addressReads])
    rw [storeAddress, storeAddress, addressSthx, addressSthx, effectiveAddress_eq_add,
      effectiveAddress_eq_add, hbase, index, index, hindex]

/-- Settles O20. -/
theorem addressIgnoresHighRegisterHalves : Obligations.AddressIgnoresHighRegisterHalves := by
  refine ⟨fun base offset => ⟨rfl, ?_⟩, fun _ _ _ => storeAddress_congr⟩
  rw [effectiveAddress_eq_add, BitVec.setWidth_eq_extractLsb' (by decide),
    BitVec.setWidth_eq_extractLsb' (by decide)]

/-- `f` on the next state of a store that goes through. -/
theorem mapNext_guardStore (f : State → State) (ea : Addr) (s t : State) :
    mapNext f (guardStore ea s t) = guardStore ea s (f t) := by
  simp only [guardStore, apply_ite (mapNext f)]
  rfl

/-- Two states with the same launch parameters and pc, in which an instruction finds the same registers with
values and the same address, stop it alike; where it goes through, `f` says how the next states differ. -/
theorem exec_eq_mapNext {i : Instr} {s s' : State} {f : State → State}
    (hlaunch : s'.launch = s.launch) (hpc : s'.pc = s.pc)
    (hheld : ∀ r ∈ registersRead i, s'.holdsValue r = s.holdsValue r)
    (hea : storeAddress i s' = storeAddress i s) (hstate : storeState i s' = f (storeState i s)) :
    exec i s' = mapNext f (exec i s) := by
  have hform_iff : FormAllowed i s' ↔ FormAllowed i s := by rw [FormAllowed, FormAllowed, hlaunch]
  have hheld_iff : RegistersHeld i s' ↔ RegistersHeld i s :=
    forall₂_congr fun r hr => by rw [hheld r hr]
  by_cases hform : FormAllowed i s
  · by_cases hregs : RegistersHeld i s
    · rw [exec_of_registersHeld hform hregs,
        exec_of_registersHeld (hform_iff.2 hform) (hheld_iff.2 hregs), mapNext_guardStore, hea, hstate,
        guardStore_congr hlaunch hpc]
    · rw [exec_of_not_registersHeld hform hregs,
        exec_of_not_registersHeld (hform_iff.2 hform) (mt hheld_iff.1 hregs), mapNext]
  · rw [exec_of_not_formAllowed hform, exec_of_not_formAllowed (mt hform_iff.1 hform), mapNext]

/-- Settles O30: memory is in no check and no operand, and the store writes two bytes into whatever memory
there is. -/
theorem storesReadNoMemory : Obligations.StoresReadNoMemory := by
  intro i s m
  refine exec_eq_mapNext rfl rfl (fun _ _ => rfl) ?_ ?_ <;> cases i <;> rfl

/-- Writes to different registers commute. -/
theorem writeReg_comm (s : State) {q r : Reg} (h : q ≠ r) (x y : Dword) :
    (s.writeReg q x).writeReg r y = (s.writeReg r y).writeReg q x := by
  have hval : q.val ≠ r.val := Fin.val_ne_of_ne h
  simp only [State.writeReg, Vector.set_comm _ _ hval]

/-- The store is no matter to the registers, nor a register write to the store. -/
theorem storeHalfword_writeReg (ea : Addr) (v : Half) (s : State) (q : Reg) (x : Dword) :
    storeHalfword ea v (s.writeReg q x) = (storeHalfword ea v s).writeReg q x := rfl

/-- A register write before an instruction is one after it, where the instruction does not update that
register and finds the same address and the same value to store. -/
theorem storeState_writeReg {i : Instr} {s : State} {q : Reg} {x : Dword}
    (hea : storeAddress i (s.writeReg q x) = storeAddress i s)
    (hvalue : halfwordOf (sourceReg i) (s.writeReg q x) = halfwordOf (sourceReg i) s)
    (hq : updatedReg i ≠ some q) : storeState i (s.writeReg q x) = (storeState i s).writeReg q x := by
  rw [storeState, storeState, hea, hvalue, storeHalfword_writeReg]
  cases hra : updatedReg i with
  | none => rfl
  | some ra =>
    have hne : q ≠ ra := fun heq => hq (heq ▸ hra)
    exact congrArg advancePc (writeReg_comm _ hne x _)

/-- Writing a register the address does not read leaves the address. -/
theorem storeAddress_writeReg {i : Instr} {q : Reg} (h : addressReads i q = false) (s : State)
    (x : Dword) : storeAddress i (s.writeReg q x) = storeAddress i s :=
  storeAddress_congr fun r hr => by
    have hne : r ≠ q := by
      rintro rfl
      simp [h] at hr
    rw [readReg_writeReg, if_neg hne]

/-- The registers read are RS and those of the address (10_state.md R15). -/
theorem mem_registersRead {i : Instr} {r : Reg} :
    r ∈ registersRead i ↔ r = sourceReg i ∨ addressReads i r = true := by
  cases i <;> simp [registersRead, sourceReg, addressReads, mem_regsRA0, or_comm]

/-- Settles O22: the address does not read RS, and the value stored is the same low half. -/
theorem highSourceBitsDoNotMatter : Obligations.HighSourceBitsDoNotMatter := by
  intro i s x haddr hupd hheld hlow
  have hea := storeAddress_writeReg haddr s x
  refine exec_eq_mapNext rfl rfl (fun r _ => ?_) hea (storeState_writeReg hea ?_ hupd)
  · rw [holdsValue_writeReg]
    split
    · next heq => rw [heq, hheld]
    · rfl
  · rw [halfwordOf, halfwordOf, readReg_writeReg, if_pos rfl, hlow]

/-- Settles O23: neither the address nor the value stored nor the check of the registers sees the register. -/
theorem unreadRegistersDoNotMatter : Obligations.UnreadRegistersDoNotMatter := by
  intro i s q x haddr hsource hupd
  have hea := storeAddress_writeReg haddr s x
  refine exec_eq_mapNext rfl rfl (fun r hr => ?_) hea (storeState_writeReg hea ?_ hupd)
  · have hne : r ≠ q := by
      rintro rfl
      simp [mem_registersRead, hsource, haddr] at hr
    rw [holdsValue_writeReg, if_neg hne]
  · rw [halfwordOf, halfwordOf, readReg_writeReg, if_neg (Ne.symm hsource)]

/-! ## An update, seen by the next instruction -/

section
variable {i : Instr} {s t : State} {ra : Reg}

/-- The low 32 bits of every register after an update form: the address in RA, elsewhere what was there
(40_store_halfword.md R73). -/
theorem readReg_setWidth_of_exec_updated (hra : updatedReg i = some ra) (hexec : exec i s = .next t)
    (r : Reg) : (t.readReg r).setWidth 32 =
      if r = ra then storeAddress i s else (s.readReg r).setWidth 32 := by
  split
  · next heq =>
    rw [heq, readReg_of_exec_updated hexec hra]
    exact zext_extractLsb_low _
  · next hne =>
    rw [readReg_of_exec_not_updated hexec]
    rw [hra, Ne, Option.some_inj]
    exact Ne.symm hne

/-- A byte of the low half of `zext_64(EA)` is that byte of EA. -/
theorem zext_extractLsb_byte (ea : Addr) {hi lo : Nat} (hlo : lo ≤ hi) (hhi : hi < 32) :
    (ea.setWidth 64).extractLsb hi lo = ea.extractLsb hi lo := by
  ext k hk
  have hwide : lo + k < 64 := by omega
  simp [BitVec.extractLsb, hwide]

end

/-- Settles O34: each address is a sum of low halves, and those of the registers after the update are known. -/
theorem updateIsSeenByTheNextInstruction : Obligations.UpdateIsSeenByTheNextInstruction := by
  intro i ra rs d s t hra hexec ea low
  have hlow : ∀ r, (t.readReg r).setWidth 32 = low r := readReg_setWidth_of_exec_updated hra hexec
  have hself : (t.readReg ra).setWidth 32 = ea := (hlow ra).trans (if_pos rfl)
  refine ⟨?_, fun h0 => ?_, fun rb => ?_, fun h0 rb => ?_, fun a => ?_, fun a => ?_,
    fun j u hj hexec' => ?_⟩
  · rw [storeAddress_sthu, effectiveAddress_eq_add, hself, displacement_setWidth]
  · rw [storeAddress_sth, if_neg h0, effectiveAddress_eq_add, hself, displacement_setWidth]
  · rw [storeAddress_sthux, effectiveAddress_eq_add, hself, hlow]
  · rw [storeAddress_sthx, if_neg h0, effectiveAddress_eq_add, hself, hlow]
  · rw [storeAddress_sthux, effectiveAddress_eq_add, hself, hlow]
  · rw [storeAddress_sthx, effectiveAddress_eq_add, hself, apply_ite (BitVec.setWidth 32), hlow]
    rfl
  · have hstored := storedAt_of_exec hexec'
    rw [hj, readReg_of_exec_updated hexec hra] at hstored
    obtain ⟨hhigh, hbyte⟩ := hstored
    rw [hhigh, hbyte, zext_extractLsb_byte _ (by decide) (by decide),
      zext_extractLsb_byte _ (by decide) (by decide)]
    exact ⟨rfl, rfl⟩

end Sys2Proof.Machine
